-- ==== Sys2Proof/Word.lean ====
section
/-! DEFINITION. The values of the block: bytes and byte strings (00_scope.md R10, R11). -/

namespace Sys2Proof

/-- An unsigned 8-bit value, bit 0 least significant (R10). -/
abbrev Byte := BitVec 8

/-- A finite byte string, index 0 first (R11). -/
abbrev Bytes := List Byte

end Sys2Proof
end

