-- ==== Sys2Proof/Config.lean ====
section
/-! DEFINITION. What an implementation fixes (00_scope.md R5 to R7) and the one free choice of the spec
(44_control.md R208). Nothing here has a value that a proof could read. -/

namespace Sys2Proof

/-- `BUF_CAP` (R5): unbounded, or a natural number of at least 9 bytes, written as `9 + beyond` so that no illegal
capacity exists. -/
inductive BufCap where
  | unbounded
  | finite (beyond : Nat)
deriving DecidableEq, Repr, Inhabited

/-- The three OPEN parameters of the spec, which it gives the model as arguments. -/
structure Params where
  /-- `BUF_CAP` (R5). -/
  bufCap : BufCap
  /-- `LOWER_HEX` (R6): the decoder also accepts `a` to `f`. -/
  lowerHex : Bool
  /-- `TICK` (R7), kept as the whole number of ticks in one second, the only form any sentence of the spec uses it in (log entry 9).
  No rule of the block reads it; only the host duty `Safety.gapRecommended` does. -/
  ticksPerSecond : Nat
deriving DecidableEq, Repr, Inhabited

/-- The parameters of the block a run from power-on is about. Free: log entry 1 (DESIGN CHOICE, safe). -/
opaque Config.params : Params

/-- Whether the RESET is taken before the HANDOFF at the `n`-th time both are enabled (R208, 93 I4 "any value").
Free: log entry 4 (DESIGN CHOICE, safe). -/
opaque Config.resetFirst : Nat → Bool

end Sys2Proof
end

