-- ==== Sys2Proof/Syntax.lean ====
section
/-! DEFINITION. The instructions: one constructor for each row of spec/opcode_table.json, and the encoded forms they
are read from (30_encoding.md R70: the command port, and the wire frame with its function byte). -/

namespace Sys2Proof

/-- Protocol variant, RESET's `MODE` (R29): 0 = ASCII, 1 = RTU. -/
inductive Mode where
  | ascii
  | rtu
deriving DecidableEq, Repr

/-- What the hand-off does, RESET's `ROLE` (R30): 0 = SLAVE, 1 = RECEIVER. -/
inductive Role where
  | slave
  | receiver
deriving DecidableEq, Repr

/-- The logical fields of a frame: address, function, data (the checksum is derived, R71). -/
structure Frame where
  address : Byte
  function : Byte
  data : Bytes
deriving DecidableEq, Repr

/-- The two ways a byte string fails to be a frame (R221, R222). -/
inductive ParseError where
  | framing
  | checksum
deriving DecidableEq, Repr

/-- One operand of a host command as it is presented (R83). -/
inductive Operand where
  | byte (v : Byte)
  | nat (n : Nat)
  | bit (v : BitVec 1)
  | bytes (s : Bytes)
deriving DecidableEq, Repr

/-- A host command as it is presented: the record `{OP, operands}` (R81). -/
structure RawCommand where
  op : BitVec 4
  operands : List Operand
deriving DecidableEq, Repr

/-- The encoded forms of the opcode table: CMD rows at the command port (R82), WIRE rows as a candidate frame (R71),
FUNC rows as the fields of a received frame whose function byte selects the operation (R78) or as the function byte of
an exception reply (R78), and INTERNAL rows, which have no encoding (R82). -/
inductive Code where
  | command (c : RawCommand)
  | wire (w : Bytes)
  | received (fr : Frame)
  | reply (f : Byte)
  | internal
deriving DecidableEq, Repr

/-- Why an encoded form spells no instruction. -/
inductive DecodeError where
  /-- The operands are not those R82 gives the opcode. -/
  | operandShape (op : BitVec 4)
  /-- A byte string is longer than its bound (R84). -/
  | tooLong
  /-- The bytes are no frame (R120). -/
  | notAFrame (k : ParseError)
  /-- A reply's function byte without bit 7 is no exception reply (R78). -/
  | notAnExceptionReply
deriving DecidableEq, Repr

/-- The rows of spec/opcode_table.json. -/
inductive Instr where
  /-- RESET (R202). -/
  | reset (own : Byte) (gap : Nat) (mode : Mode) (role : Role)
  /-- RXB (R141): a byte and its arrival time. -/
  | rxb (b : Byte) (t : Nat)
  /-- RXTO (R142): a read timeout at a time. -/
  | rxto (t : Nat)
  /-- FLUSH (R144). -/
  | flush
  /-- LRC (R101). -/
  | lrc (p : Bytes)
  /-- BUILD (R113). -/
  | build (a f : Byte) (d : Bytes)
  /-- PARSE (R121). -/
  | parse (w : Bytes)
  /-- RESERVED_CMD_7 (R207): OP 0x7. -/
  | reservedCmd7
  /-- RESERVED_CMD_8_F (R207): OP 0x8 to 0xF, by its low three bits. -/
  | reservedCmd8F (low : BitVec 3)
  /-- HANDOFF (R146), internal. -/
  | handoff
  /-- WRITE_TEXT (R172): a received frame with function 0x01. -/
  | writeText (a : Byte) (d : Bytes)
  /-- READ_TEXT (R174, R175): a received frame with function 0x02. -/
  | readText (a : Byte) (d : Bytes)
  /-- UNSUPPORTED_FUNC (R176, R177): a received frame with any other function. -/
  | unsupportedFunc (a f : Byte) (d : Bytes)
  /-- EXCEPTION_REPLY (R176): the function byte of the reply, bit 7 set. -/
  | exceptionReply (f : Byte)
  /-- WIRE_FRAME (R71): a frame on the wire. -/
  | wireFrame (a f : Byte) (d : Bytes)
deriving DecidableEq, Repr

end Sys2Proof
end

