-- ==== Sys2Proof/Machine/Operands.lean ====
section
/-! DEFINITION. The operand forms: lengths bounded by the parameters (00_scope.md R8, 30_encoding.md R83, R84), the one
bit operands (R29, R30) and the legal addresses (R9, R61). -/

namespace Sys2Proof

/-- `BUF_CAP` as a number; `none` is ∞ (R5). -/
def Params.bufCapacity (p : Params) : Option Nat :=
  match p.bufCap with
  | .unbounded => none
  | .finite k => some (9 + k)

/-- `DATA_MAX = (BUF_CAP − 9) div 2`, ∞ for an unbounded buffer (R8). -/
def Params.dataMax (p : Params) : Option Nat :=
  p.bufCapacity.map fun c => (c - 9) / 2

/-- `TEXT_CAP = DATA_MAX` (R8). -/
def Params.textCap (p : Params) : Option Nat :=
  p.dataMax

/-- `LRC_MAX = DATA_MAX + 3` (R8). -/
def Params.lrcMax (p : Params) : Option Nat :=
  p.dataMax.map (· + 3)

/-- The byte string is no longer than the bound; no bound is ∞ (R84). -/
def within : Bytes → Option Nat → Bool
  | [], _ => true
  | _ :: _, none => true
  | b :: s, some n => decide ((b :: s).length ≤ n)

/-- A buffer of `n` bytes is full (R141): never when `BUF_CAP = ∞`. -/
def Params.isFull (p : Params) (n : Nat) : Bool :=
  match p.bufCapacity with
  | none => false
  | some c => decide (n = c)

/-- `MODE` (R83). -/
def modeOfBit (v : BitVec 1) : Mode := if v = 0 then .ascii else .rtu

/-- The bit of a `MODE` (R29). -/
def bitOfMode : Mode → BitVec 1
  | .ascii => 0
  | .rtu => 1

/-- `ROLE` (R83). -/
def roleOfBit (v : BitVec 1) : Role := if v = 0 then .slave else .receiver

/-- The bit of a `ROLE` (R30). -/
def bitOfRole : Role → BitVec 1
  | .slave => 0
  | .receiver => 1

/-- An address a frame may be built for: 0 to 247 (R9, R110). -/
def addressLegal (a : Byte) : Bool := decide (a.toNat ≤ 247)

/-- A station address: 1 to 247 (R9, R27). -/
def stationLegal (a : Byte) : Bool := decide (1 ≤ a.toNat) && decide (a.toNat ≤ 247)

end Sys2Proof
end

