-- ==== Sys2Proof/Machine/State.lean ====
section
/-! DEFINITION. The state: the record S of 10_state.md R22, and beside it the host's side of the command port
(30_encoding.md R81, R88) and the parameters (00_scope.md R5 to R7). -/

namespace Sys2Proof.Machine

open Sys2Proof

/-- Status codes (30_encoding.md R86). -/
inductive Status where
  | ok
  | invalidAddress
  | framingError
  | checksumError
  | unsupportedMode
  | illegalFunction
  | illegalCommand
  | halted
  | notConfigured
deriving DecidableEq, Repr

/-- `S.run` (R23): running, or halted with the status code that halted it. -/
inductive Run where
  | run
  | halted (c : Status)
deriving DecidableEq, Repr

/-- `S.fsm` (R24). -/
inductive Fsm where
  | idle
  | accumulating
  | frameReady
deriving DecidableEq, Repr

/-- `S.rdy_cause` (R26). -/
inductive Cause where
  | none
  | term
  | gap
  | full
deriving DecidableEq, Repr

/-- The tag of an outcome record (R90). -/
inductive Tag where
  /-- `Rejected(FramingError)`, `Rejected(ChecksumError)`. -/
  | rejected (k : ParseError)
  /-- `Ignored(NotAddressed, a)`. -/
  | ignoredNotAddressed (a : Byte)
  /-- `Accepted(WriteText, a)`. -/
  | acceptedWriteText (a : Byte)
  /-- `Ignored(BroadcastRead)`. -/
  | ignoredBroadcastRead
  /-- `Accepted(ReadText, a)`. -/
  | acceptedReadText (a : Byte)
  /-- `Rejected(IllegalFunction, f)`. -/
  | rejectedIllegalFunction (f : Byte)
  /-- `Ignored(BroadcastUnsupported, f)`. -/
  | ignoredBroadcastUnsupported (f : Byte)
  /-- `Frame(a, f, d)`. -/
  | frame (a f : Byte) (d : Bytes)
deriving DecidableEq, Repr

/-- An outcome record `{cause, tag}` (R90). -/
structure Record where
  cause : Cause
  tag : Tag
deriving DecidableEq, Repr

/-- A command's response (R88). -/
inductive Response where
  | ok
  | val (v : Byte)
  | wire (s : Bytes)
  | fields (a f : Byte) (d : Bytes)
  | err (k : Status)
  /-- `Err(Halted, c)`. -/
  | errHalted (c : Status)
deriving DecidableEq, Repr

/-- The state S of one block instance: exactly the fields of R22. -/
structure Block where
  run : Run
  own : Byte
  gap : Nat
  mode : Mode
  role : Role
  fsm : Fsm
  rdyCause : Cause
  buf : Bytes
  tLast : Nat
  text : Bytes
  tx : Bytes
  log : List Record
deriving DecidableEq, Repr

/-- The machine: the block, its parameters, and the host's side of the command port. -/
structure State where
  /-- The block's state S (R22). -/
  blk : Block
  /-- BUF_CAP, LOWER_HEX, TICK (R5 to R7). No step writes it. Log entry 1. -/
  params : Params
  /-- The commands the host has issued and the block has not yet accepted, oldest first (R36(c), R59). Log entry 2. -/
  port : List RawCommand
  /-- The responses given so far, oldest first (R88). Log entry 3. -/
  responses : List Response
  /-- How many RESET/HANDOFF choices have been made (R208). Log entry 4. -/
  choices : Nat
deriving DecidableEq, Repr

/-- The block has no traps (R230): a fault of the model stands only for a step the spec does not enable. -/
inductive Fault where
  /-- Raised by the meanings of the internal rows HANDOFF, WIRE_FRAME, WRITE_TEXT, READ_TEXT, UNSUPPORTED_FUNC and
  EXCEPTION_REPLY in a state where the spec does not enable them (R146, R178). Safe: the machine's own step never
  performs them there. -/
  | stepNotEnabled
deriving DecidableEq, Repr

/-- Why the model gives no next state. -/
inductive Refusal where
  /-- An instruction without a meaning yet; raised by the dispatcher's arms only, and at present by none. Safe. -/
  | notModelled (mnemonic : String)
  /-- Raised by step on a presented command that spells no instruction (R84, 93 I10 "refuse"). Safe: the host cannot
  present it. -/
  | noSuchCommand (e : DecodeError)
  /-- Raised by a meaning given an instruction that does not exist under the parameters (R84). Safe: the decoder never
  yields one. -/
  | illFormed
deriving DecidableEq, Repr

/-- Power-on values of S (R38). -/
def Block.powerOn : Block where
  run := .halted .notConfigured
  own := 0
  gap := 0
  mode := .ascii
  role := .slave
  fsm := .idle
  rdyCause := .none
  buf := []
  tLast := 0
  text := []
  tx := []
  log := []

/-- The machine at power-on (R38, R250): no command issued, none answered, the parameters free (log entries 1 to 4). -/
def State.reset : State where
  blk := Block.powerOn
  params := Config.params
  port := []
  responses := []
  choices := 0

end Sys2Proof.Machine
end

