-- ==== Sys2Proof/Machine/Codec.lean ====
section
/-! DEFINITION. The pure functions of the codec: the checksum (40_checksum.md R100), hex (30_encoding.md R73, R74), the
encoder (41_codec.md R110, R111) and the decoder (R114 to R120). -/

namespace Sys2Proof.Machine

open Sys2Proof

/-- `MARKER`, the character `:` (R9, R76). -/
def marker : Byte := 0x3A
/-- Carriage return (R9, R76). -/
def cr : Byte := 0x0D
/-- Line feed (R9, R76). -/
def lf : Byte := 0x0A
/-- `FN_WRITE_TEXT` (R9). -/
def fnWriteText : Byte := 0x01
/-- `FN_READ_TEXT` (R9). -/
def fnReadText : Byte := 0x02
/-- `EXC_BIT` (R9). -/
def excBit : Byte := 0x80
/-- `BROADCAST` (R9). -/
def broadcast : Byte := 0x00
/-- The acknowledgement payload `"OK"` (R9, R173). -/
def okPayload : Bytes := [0x4F, 0x4B]
/-- The exception payload `"01"` (R9, R176). -/
def excPayload : Bytes := [0x30, 0x31]

/-- `sum(s)`, unbounded (R11). -/
def byteSum (s : Bytes) : Nat := (s.map BitVec.toNat).sum

/-- `lrc(p) = (256 − (sum(p) mod 256)) mod 256` (R100). -/
def lrc (p : Bytes) : Byte := BitVec.ofNat 8 ((256 - byteSum p % 256) % 256)

/-- `digitU(k)` (R73). -/
def digitU (k : BitVec 4) : Byte :=
  if k.toNat ≤ 9 then BitVec.ofNat 8 (0x30 + k.toNat) else BitVec.ofNat 8 (0x41 + (k.toNat - 10))

/-- `hex(v)`: two upper-case digits, most significant nibble first (R73). -/
def hexByte (v : Byte) : Bytes := [digitU (v.extractLsb' 4 4), digitU (v.extractLsb' 0 4)]

/-- `hexU(s)` (R73). -/
def hexU (s : Bytes) : Bytes := s.flatMap hexByte

/-- `nib(c)`; `none` for a non-hex character (R74). -/
def nib (lower : Bool) (c : Byte) : Option Nat :=
  if 0x30 ≤ c.toNat ∧ c.toNat ≤ 0x39 then some (c.toNat - 0x30)
  else if 0x41 ≤ c.toNat ∧ c.toNat ≤ 0x46 then some (c.toNat - 0x41 + 10)
  else if lower = true ∧ 0x61 ≤ c.toNat ∧ c.toNat ≤ 0x66 then some (c.toNat - 0x61 + 10)
  else none

/-- The bytes of a hex body, pair by pair (R74, R117); `none` when a character has no `nib` (R116) or is left over. -/
def hexDecode (lower : Bool) : Bytes → Option Bytes
  | [] => some []
  | [_] => none
  | h :: l :: rest =>
    match nib lower h, nib lower l, hexDecode lower rest with
    | some x, some y, some b => some (BitVec.ofNat 8 (x * 16 + y) :: b)
    | _, _, _ => none

/-- `last2(s)`, the last two bytes of a string that has two (R11). -/
def last2 (s : Bytes) : Bytes := s.drop (s.length - 2)

/-- The string ends with `TERM` (R141). -/
def endsWithTerm (s : Bytes) : Bool := decide (2 ≤ s.length) && decide (last2 s = [cr, lf])

/-- The wire frame of the fields (R71): the output R111 gives `build`. -/
def wireBytes (a f : Byte) (d : Bytes) : Bytes :=
  [marker] ++ hexU ([a, f] ++ d ++ [lrc ([a, f] ++ d)]) ++ [cr, lf]

/-- `build(a, f, d)` (R110, R111, R112). -/
def build (a f : Byte) (d : Bytes) : Except Status Bytes :=
  if addressLegal a then .ok (wireBytes a f d) else .error .invalidAddress

/-- The split and the checksum check of decoded bytes (R117, R118). A string of fewer than two bytes does not come from
a body that passed R115. -/
def splitFields (b : Bytes) : Except ParseError Frame :=
  if lrc b.dropLast ≠ b.getLastD 0 then .error .checksum
  else .ok ⟨b.getD 0 0, b.getD 1 0, (b.drop 2).dropLast⟩

/-- `parse(w)`, the checks in the order of R120. -/
def parse (lower : Bool) (w : Bytes) : Except ParseError Frame :=
  if w.head? ≠ some marker then .error .framing
  else if w.length < 3 ∨ last2 w ≠ [cr, lf] then .error .framing
  else
    let body := (w.drop 1).take (w.length - 3)
    if body.length % 2 = 1 ∨ body.length < 6 then .error .framing
    else
      match hexDecode lower body with
      | none => .error .framing
      | some b => splitFields b

end Sys2Proof.Machine
end

