-- ==== Sys2Proof/WellFormed.lean ====
section
/-! DEFINITION. Which instructions exist for given parameters: operand length bounds are part of the encoding
(30_encoding.md R83, R84), a frame fits the receive buffer (00_scope.md R8; log entry 12), and a function row holds the function
bytes of its own class (R78, R79). -/

namespace Sys2Proof

/-- The function byte is one of the 254 unsupported ones (R79). -/
def unsupported (f : Byte) : Bool := decide (f ≠ 0x01) && decide (f ≠ 0x02)

/-- Well-formedness under the parameters. -/
def Instr.wf (p : Params) : Instr → Bool
  | .reset _ _ _ _ => true
  | .rxb _ _ => true
  | .rxto _ => true
  | .flush => true
  | .lrc s => within s p.lrcMax
  | .build _ _ d => within d p.dataMax
  | .parse w => within w p.bufCapacity
  | .reservedCmd7 => true
  | .reservedCmd8F _ => true
  | .handoff => true
  | .writeText _ d => within d p.dataMax
  | .readText _ d => within d p.dataMax
  | .unsupportedFunc _ f d => unsupported f && within d p.dataMax
  | .exceptionReply f => f.msb
  | .wireFrame _ _ d => within d p.dataMax

end Sys2Proof
end

