-- ==== Sys2Proof/Decode.lean ====
section
/-! DEFINITION. The decoder, total on every encoded form and rejecting by name, and after it the encoder
(30_encoding.md R70 to R85). -/

namespace Sys2Proof

open Sys2Proof.Machine

/-- The command a record spells, lengths aside (R82). A reserved opcode answers whatever comes with it (R209; log entry
5). -/
def readCommand (c : RawCommand) : Option Instr :=
  match c.op.toNat, c.operands with
  | 0x0, [.byte own, .nat gap, .bit m, .bit r] => some (.reset own gap (modeOfBit m) (roleOfBit r))
  | 0x1, [.byte b, .nat t] => some (.rxb b t)
  | 0x2, [.nat t] => some (.rxto t)
  | 0x3, [] => some .flush
  | 0x4, [.bytes s] => some (.lrc s)
  | 0x5, [.byte a, .byte f, .bytes d] => some (.build a f d)
  | 0x6, [.bytes w] => some (.parse w)
  | 0x7, _ => some .reservedCmd7
  | n, _ => if 8 ≤ n then some (.reservedCmd8F (c.op.setWidth 3)) else none

/-- The decoder of the command port (R81 to R85). -/
def decodeCommand (p : Params) (c : RawCommand) : Except DecodeError Instr :=
  match readCommand c with
  | none => .error (.operandShape c.op)
  | some i => if i.wf p then .ok i else .error .tooLong

/-- The operation a received function byte selects (R78, R79). -/
def functionInstr (fr : Frame) : Instr :=
  if fr.function = fnWriteText then .writeText fr.address fr.data
  else if fr.function = fnReadText then .readText fr.address fr.data
  else .unsupportedFunc fr.address fr.function fr.data

/-- The decoder of every encoded form. -/
def decode (p : Params) : Code → Except DecodeError Instr
  | .command c => decodeCommand p c
  | .wire w =>
    if within w p.bufCapacity then
      match Machine.parse p.lowerHex w with
      | .ok fr => .ok (.wireFrame fr.address fr.function fr.data)
      | .error k => .error (.notAFrame k)
    else .error .tooLong
  | .received fr =>
    if within fr.data p.dataMax then .ok (functionInstr fr) else .error .tooLong
  | .reply f => if f.msb then .ok (.exceptionReply f) else .error .notAnExceptionReply
  | .internal => .ok .handoff

/-- The encoder of the command port; `none` for the rows the host cannot issue (R82). -/
def encodeCommand : Instr → Option RawCommand
  | .reset own gap mode role => some ⟨0x0, [.byte own, .nat gap, .bit (bitOfMode mode), .bit (bitOfRole role)]⟩
  | .rxb b t => some ⟨0x1, [.byte b, .nat t]⟩
  | .rxto t => some ⟨0x2, [.nat t]⟩
  | .flush => some ⟨0x3, []⟩
  | .lrc s => some ⟨0x4, [.bytes s]⟩
  | .build a f d => some ⟨0x5, [.byte a, .byte f, .bytes d]⟩
  | .parse w => some ⟨0x6, [.bytes w]⟩
  | .reservedCmd7 => some ⟨0x7, []⟩
  | .reservedCmd8F low => some ⟨1#1 ++ low, []⟩
  | .handoff | .writeText _ _ | .readText _ _ | .unsupportedFunc _ _ _ | .exceptionReply _ | .wireFrame _ _ _ => none

/-- The encoder of the rows that are not host commands (R71, R78, R82). -/
def encodeInternal : Instr → Code
  | .writeText a d => .received ⟨a, fnWriteText, d⟩
  | .readText a d => .received ⟨a, fnReadText, d⟩
  | .unsupportedFunc a f d => .received ⟨a, f, d⟩
  | .exceptionReply f => .reply f
  | .wireFrame a f d => .wire (wireBytes a f d)
  | .handoff | .reset _ _ _ _ | .rxb _ _ | .rxto _ | .flush | .lrc _ | .build _ _ _ | .parse _ | .reservedCmd7
  | .reservedCmd8F _ => .internal

/-- The encoder. -/
def encode (i : Instr) : Code :=
  match encodeCommand i with
  | some c => .command c
  | none => encodeInternal i

/-- The pseudo-command `RXS s @t +d` (R92): one RXB for each byte, `d` ticks apart. -/
def rxs : Bytes → Nat → Nat → List RawCommand
  | [], _, _ => []
  | b :: s, t, d => ⟨0x1, [.byte b, .nat t]⟩ :: rxs s (t + d) d

/-- A command of opcode `op` whose operands are all zero or empty. -/
def zeroCommand (op : BitVec 4) : RawCommand :=
  match op.toNat with
  | 0x0 => ⟨op, [.byte 0, .nat 0, .bit 0, .bit 0]⟩
  | 0x1 => ⟨op, [.byte 0, .nat 0]⟩
  | 0x2 => ⟨op, [.nat 0]⟩
  | 0x4 => ⟨op, [.bytes []]⟩
  | 0x5 => ⟨op, [.byte 0, .byte 0, .bytes []]⟩
  | 0x6 => ⟨op, [.bytes []]⟩
  | _ => ⟨op, []⟩

/-- A word of the opcode table: below 16 an `OP` of the command port with operands of zeros, above it the function byte
of a received frame to address 0 without data (R78; log entry 8: the two levels share the numbers 0, 1, 2). -/
def tableCode (w : Nat) : Code :=
  if w < 16 then .command (zeroCommand (BitVec.ofNat 4 w))
  else .received ⟨0, BitVec.ofNat 8 w, []⟩

/-- The instruction the decoder reads from a word of the opcode table. -/
def decodeTableWord (nbits w : Nat) : Option Instr :=
  if nbits ≤ 8 ∧ w < 256 then (decode Config.params (tableCode w)).toOption else none

end Sys2Proof
end

