-- ==== Sys2Proof/Machine/Flags.lean ====
section
/-! DEFINITION. The block has no flags beyond `S.fsm` and `S.rdy_cause` (10_state.md R37): how a received byte
(42_assembler.md R141) and a read timeout (R142, R143) decide them, the numbers of the codes (30_encoding.md R86, R87)
and the outcome families (43_dispatcher.md R181). -/

namespace Sys2Proof.Machine

open Sys2Proof

/-- The boundary signal a buffer gives when a byte has just been appended: TERM before FULL (R141(c)). -/
def boundaryOf (p : Params) (nb : Bytes) : Cause :=
  if endsWithTerm nb then .term
  else if p.isFull nb.length then .full
  else .none

/-- `elapsed(T, t)`, saturating (R143). -/
def elapsed (now before : Nat) : Nat := if before ≤ now then now - before else 0

/-- The silence at time `now` is at least the gap (R142). -/
def gapOver (now tLast gap : Nat) : Bool := decide (gap ≤ elapsed now tLast)

/-- The 4-bit status codes (R86). -/
def Status.code : Status → BitVec 4
  | .ok => 0x0
  | .invalidAddress => 0x1
  | .framingError => 0x2
  | .checksumError => 0x3
  | .unsupportedMode => 0x4
  | .illegalFunction => 0x5
  | .illegalCommand => 0x6
  | .halted => 0x7
  | .notConfigured => 0x8

/-- The boundary cause codes (R87). -/
def Cause.code : Cause → Nat
  | .none => 0
  | .term => 1
  | .gap => 2
  | .full => 3

/-- The status of a parse failure (R221, R222). -/
def ParseError.status : ParseError → Status
  | .framing => .framingError
  | .checksum => .checksumError

/-- The error kind an outcome record reports, if any (R90, R224). -/
def Tag.kind : Tag → Option Status
  | .rejected k => some (ParseError.status k)
  | .rejectedIllegalFunction _ => some .illegalFunction
  | .ignoredNotAddressed _ | .acceptedWriteText _ | .ignoredBroadcastRead | .acceptedReadText _
  | .ignoredBroadcastUnsupported _ | .frame _ _ _ => none

/-- The source's three outcome families (R181). -/
inductive Family where
  | accepted
  | ignored
  | rejected
deriving DecidableEq, Repr

/-- The family of a tag; the receiver's `Frame` is in none of the three (R90, R181). -/
def Tag.family : Tag → Option Family
  | .acceptedWriteText _ | .acceptedReadText _ => some .accepted
  | .ignoredNotAddressed _ | .ignoredBroadcastRead | .ignoredBroadcastUnsupported _ => some .ignored
  | .rejected _ | .rejectedIllegalFunction _ => some .rejected
  | .frame _ _ _ => none

end Sys2Proof.Machine
end

