-- ==== Sys2Proof/Machine/Ops.lean ====
section
/-! DEFINITION. The shared operations: the block's storage (20_memory.md R51 to R53), replies, the acceptance of a host
command (44_control.md R200, R206, R209), the internal steps (42_assembler.md R146), and which step is due. There are
no traps to take or return from (60_exceptions.md R230, R231): an error is an answer. -/

namespace Sys2Proof.Machine

open Sys2Proof

/-- What a step answers. -/
abbrev Result := Host.Outcome State Fault Refusal

/-- HANDOFF is enabled (R146): `S.run = RUN` and `S.fsm = FRAME_READY`. -/
def Block.ready (b : Block) : Bool := decide (b.run = .run) && decide (b.fsm = .frameReady)

/-- The dispatcher is enabled: at a hand-off in role SLAVE (R146). -/
def Block.dispatching (b : Block) : Bool := b.ready && decide (b.role = .slave)

/-- `emit_tx(s)` (R12, R53). -/
def Block.emitTx (b : Block) (w : Bytes) : Block := { b with tx := b.tx ++ w }

/-- `emit_log({cause, tag})` with the cause of the hand-off, `S.rdy_cause` (R12, R90). -/
def Block.emitLog (b : Block) (tag : Tag) : Block := { b with log := b.log ++ [⟨b.rdyCause, tag⟩] }

/-- Overwrite the stored text (R52). -/
def Block.storeText (b : Block) (d : Bytes) : Block := { b with text := d }

/-- Clear the receive buffer and return to IDLE (R144, R147). -/
def Block.clearBuf (b : Block) : Block := { b with buf := [], fsm := .idle, rdyCause := .none }

/-- Send a reply frame from the own address (R173, R175, R176, R179(b)). `build` cannot fail for a legal own address
(R179(d)); were it to fail, nothing would be sent (log entry 7). -/
def Block.reply (b : Block) (f : Byte) (d : Bytes) : Block :=
  match build b.own f d with
  | .ok w => b.emitTx w
  | .error _ => b

/-- Another block state, everything else as it was. -/
def State.withBlk (s : State) (b : Block) : State := { s with blk := b }

/-- `respond(r)` (R12, R88). -/
def State.respond (s : State) (r : Response) : State := { s with responses := s.responses ++ [r] }

/-- The command waits outside the block, before every command issued after it (R200, R36(c)). -/
def State.hold (s : State) (i : Instr) : State := { s with port := (encodeCommand i).toList ++ s.port }

/-- The acceptance of the commands OP 0x1 to 0x6 (R200, R206, R209): held in FRAME_READY, refused by a halted block,
performed otherwise. A command that does not exist has no meaning (R84). -/
def acceptCommand (i : Instr) (s : State) (perform : State → State) : Result :=
  if i.wf s.params then
    if s.blk.ready then .next (s.hold i)
    else
      match s.blk.run with
      | .halted c => .next (s.respond (.errHalted c))
      | .run => .next (perform s)
  else .refused .illFormed

/-- The acceptance of a reserved opcode (R207): held in FRAME_READY, else the same answer in every run state. -/
def acceptReserved (i : Instr) (s : State) : Result :=
  if s.blk.ready then .next (s.hold i) else .next (s.respond (.err .illegalCommand))

/-- A step the block takes on its own (R146): it answers nothing. -/
def internalStep (i : Instr) (enabled : Bool) (s : State) (act : Block → Block) : Result :=
  if i.wf s.params then
    if enabled then .next (s.withBlk (act s.blk)) else .fault .stepNotEnabled
  else .refused .illFormed

/-- The record spells a RESET. -/
def isReset (p : Params) (c : RawCommand) : Bool :=
  match decodeCommand p c with
  | .ok (.reset _ _ _ _) => true
  | _ => false

/-- Which step is taken next, and the state it is taken in. -/
inductive Due where
  | handoff (s : State)
  | command (c : RawCommand) (s : State)
  | idle
deriving DecidableEq, Repr

/-- The enabled step (R200). In FRAME_READY it is HANDOFF, unless the oldest command is a RESET and the choice of R208
falls on it; otherwise it is the oldest command. Without one the block holds its state (R237). -/
def State.due (s : State) : Due :=
  match s.port with
  | [] => if s.blk.ready then .handoff s else .idle
  | c :: rest =>
    if s.blk.ready then
      if isReset s.params c then
        if Config.resetFirst s.choices then .command c { s with port := rest, choices := s.choices + 1 }
        else .handoff { s with choices := s.choices + 1 }
      else .handoff s
    else .command c { s with port := rest }

/-- The state with an encoded form placed where the next step takes it: a command at the head of the queue, with no
frame waiting for its hand-off; a received frame in the buffer of a running slave, complete. -/
def State.present (s : State) : Code → State
  | .command c => { s with blk := if s.blk.ready then s.blk.clearBuf else s.blk, port := c :: s.port }
  | .received fr => { s with
      blk := { s.blk with
        run := .run, mode := .ascii, role := .slave, fsm := .frameReady, rdyCause := .term,
        buf := wireBytes fr.address fr.function fr.data },
      port := [] }
  | .wire _ | .reply _ | .internal => s

end Sys2Proof.Machine
end

