-- ==== Sys2Proof/Machine/Dispatcher.lean ====
section
/-! DEFINITION. The slave dispatcher and the receiver report (43_dispatcher.md R170 to R181): what a hand-off does with
the parse result, before it clears the buffer. -/

namespace Sys2Proof.Machine

open Sys2Proof

/-- The address filter, before every function test (R171). -/
def Block.addressed (b : Block) (a : Byte) (act : Block → Block) : Block :=
  if a ≠ broadcast ∧ a ≠ b.own then b.emitLog (.ignoredNotAddressed a) else act b

/-- WriteText (R172) and its acknowledgement (R173). -/
def Block.writeText (a : Byte) (d : Bytes) (b : Block) : Block :=
  let stored := b.storeText d
  let answered := if a ≠ broadcast then stored.reply fnWriteText okPayload else stored
  answered.emitLog (.acceptedWriteText a)

/-- ReadText: never answered to a broadcast (R174), else with the whole stored text (R175). -/
def Block.readText (a : Byte) (b : Block) : Block :=
  if a = broadcast then b.emitLog .ignoredBroadcastRead
  else (b.reply fnReadText b.text).emitLog (.acceptedReadText a)

/-- The exception reply to function `f` (R176). -/
def Block.exceptionReply (f : Byte) (b : Block) : Block := b.reply (f ||| excBit) excPayload

/-- An unsupported function: ignored when broadcast (R177), else the exception reply (R176). -/
def Block.unsupportedFunc (a f : Byte) (b : Block) : Block :=
  if a = broadcast then b.emitLog (.ignoredBroadcastUnsupported f)
  else (b.exceptionReply f).emitLog (.rejectedIllegalFunction f)

/-- The dispatch of a parse result, in the order of R178. -/
def Block.dispatch (b : Block) (r : Except ParseError Frame) : Block :=
  match r with
  | .error k => b.emitLog (.rejected k)
  | .ok fr =>
    b.addressed fr.address fun b =>
      if fr.function = fnWriteText then b.writeText fr.address fr.data
      else if fr.function = fnReadText then b.readText fr.address
      else b.unsupportedFunc fr.address fr.function

/-- The report of a parse result in role RECEIVER (R180). -/
def Block.report (b : Block) (r : Except ParseError Frame) : Block :=
  match r with
  | .error k => b.emitLog (.rejected k)
  | .ok fr => b.emitLog (.frame fr.address fr.function fr.data)

/-- What a hand-off does with a parse result: the role decides (R146, R201). -/
def Block.deliver (b : Block) (r : Except ParseError Frame) : Block :=
  match b.role with
  | .slave => b.dispatch r
  | .receiver => b.report r

/-- WRITE_TEXT within a hand-off (R171, R172, R173). -/
def execWriteText (a : Byte) (d : Bytes) (s : State) : Result :=
  internalStep (.writeText a d) s.blk.dispatching s fun b => b.addressed a (Block.writeText a d)

/-- READ_TEXT within a hand-off (R171, R174, R175); the request's data is not looked at (R175). -/
def execReadText (a : Byte) (d : Bytes) (s : State) : Result :=
  internalStep (.readText a d) s.blk.dispatching s fun b => b.addressed a (Block.readText a)

/-- UNSUPPORTED_FUNC within a hand-off (R171, R176, R177). -/
def execUnsupportedFunc (a f : Byte) (d : Bytes) (s : State) : Result :=
  internalStep (.unsupportedFunc a f d) s.blk.dispatching s fun b => b.addressed a (Block.unsupportedFunc a f)

/-- EXCEPTION_REPLY within a hand-off (R176): the reply alone; its record belongs to UNSUPPORTED_FUNC. -/
def execExceptionReply (f : Byte) (s : State) : Result :=
  internalStep (.exceptionReply f) s.blk.dispatching s fun b => b.exceptionReply f

/-- WIRE_FRAME within a hand-off (R71, R178, R180): what is done with a frame that parsed. -/
def execWireFrame (a f : Byte) (d : Bytes) (s : State) : Result :=
  internalStep (.wireFrame a f d) s.blk.ready s fun b => b.deliver (.ok ⟨a, f, d⟩)

end Sys2Proof.Machine
end

