-- ==== Sys2Proof/Machine/Assembler.lean ====
section
/-! DEFINITION. The frame assembler (42_assembler.md R140 to R149): RXB, RXTO, FLUSH and the internal HANDOFF. -/

namespace Sys2Proof.Machine

open Sys2Proof

/-- A received byte (R141): append, record the time, test TERM and then FULL. -/
def Block.receive (p : Params) (v : Byte) (t : Nat) (b : Block) : Block :=
  let nb := b.buf ++ [v]
  match boundaryOf p nb with
  | .none => { b with buf := nb, tLast := t, fsm := .accumulating }
  | c => { b with buf := nb, tLast := t, fsm := .frameReady, rdyCause := c }

/-- A read timeout (R142). -/
def Block.timeout (t : Nat) (b : Block) : Block :=
  if b.fsm = .accumulating ∧ gapOver t b.tLast b.gap = true then { b with fsm := .frameReady, rdyCause := .gap }
  else b

/-- The hand-off (R146, R147): read, parse, dispatch or report, then clear, in one step (R56, C4). -/
def Block.handoff (lower : Bool) (b : Block) : Block := (b.deliver (parse lower b.buf)).clearBuf

/-- RXB (R140, R141). -/
def execRxb (b : Byte) (t : Nat) (s : State) : Result :=
  acceptCommand (.rxb b t) s fun s => (s.withBlk (s.blk.receive s.params b t)).respond .ok

/-- RXTO (R140, R142). -/
def execRxto (t : Nat) (s : State) : Result :=
  acceptCommand (.rxto t) s fun s => (s.withBlk (s.blk.timeout t)).respond .ok

/-- FLUSH (R140, R144). -/
def execFlush (s : State) : Result :=
  acceptCommand .flush s fun s => (s.withBlk s.blk.clearBuf).respond .ok

/-- HANDOFF (R146, R147). -/
def execHandoff (s : State) : Result :=
  internalStep .handoff s.blk.ready s (Block.handoff s.params.lowerHex)

end Sys2Proof.Machine
end

