-- ==== Sys2Proof/Machine/CodecCommands.lean ====
section
/-! DEFINITION. The pure commands LRC, BUILD and PARSE (40_checksum.md R101, 41_codec.md R113, R121). -/

namespace Sys2Proof.Machine

open Sys2Proof

/-- BUILD's response (R113). -/
def buildResponse (a f : Byte) (d : Bytes) : Response :=
  match build a f d with
  | .ok w => .wire w
  | .error k => .err k

/-- PARSE's response (R121). -/
def parseResponse (lower : Bool) (w : Bytes) : Response :=
  match parse lower w with
  | .ok fr => .fields fr.address fr.function fr.data
  | .error k => .err (ParseError.status k)

/-- LRC (R101). -/
def execLrc (p : Bytes) (s : State) : Result :=
  acceptCommand (.lrc p) s fun s => s.respond (.val (lrc p))

/-- BUILD (R113). -/
def execBuild (a f : Byte) (d : Bytes) (s : State) : Result :=
  acceptCommand (.build a f d) s fun s => s.respond (buildResponse a f d)

/-- PARSE (R121). -/
def execParse (w : Bytes) (s : State) : Result :=
  acceptCommand (.parse w) s fun s => s.respond (parseResponse s.params.lowerHex w)

end Sys2Proof.Machine
end

