-- ==== Sys2Proof/Machine/Control.lean ====
section
/-! DEFINITION. RESET and the reserved opcodes (44_control.md R202 to R207). -/

namespace Sys2Proof.Machine

open Sys2Proof

/-- The configuration check of RESET: the mode before the address (R203, R204, R205). -/
def configError (own : Byte) (mode : Mode) (role : Role) : Option Status :=
  if mode = .rtu then some .unsupportedMode
  else if role = .slave ∧ stationLegal own = false then some .invalidAddress
  else none

/-- The fields RESET writes (R39, R202): all but the two streams. -/
def Block.configure (b : Block) (own : Byte) (gap : Nat) (mode : Mode) (role : Role) (next : Run) : Block :=
  { b with
    run := next, own := own, gap := gap, mode := mode, role := role,
    fsm := .idle, rdyCause := .none, buf := [], tLast := 0, text := [] }

/-- RESET (R202): accepted in every state (R208). -/
def execReset (own : Byte) (gap : Nat) (mode : Mode) (role : Role) (s : State) : Result :=
  match configError own mode role with
  | some k => .next ((s.withBlk (s.blk.configure own gap mode role (.halted k))).respond (.err k))
  | none => .next ((s.withBlk (s.blk.configure own gap mode role .run)).respond .ok)

/-- RESERVED_CMD_7 (R207). -/
def execReservedCmd7 (s : State) : Result := acceptReserved .reservedCmd7 s

/-- RESERVED_CMD_8_F (R207). -/
def execReservedCmd8F (low : BitVec 3) (s : State) : Result := acceptReserved (.reservedCmd8F low) s

end Sys2Proof.Machine
end

