-- ==== Sys2Proof/Machine/Dispatch.lean ====
section
/-! DEFINITION. One arm per constructor of Instr. -/

namespace Sys2Proof.Machine

open Sys2Proof

def exec (i : Instr) (s : State) : Host.Outcome State Fault Refusal :=
  match i with
  | .reset own gap mode role => Sys2Proof.Machine.execReset own gap mode role s
  | .rxb b t => Sys2Proof.Machine.execRxb b t s
  | .rxto t => Sys2Proof.Machine.execRxto t s
  | .flush => Sys2Proof.Machine.execFlush s
  | .lrc p => Sys2Proof.Machine.execLrc p s
  | .build a f d => Sys2Proof.Machine.execBuild a f d s
  | .parse w => Sys2Proof.Machine.execParse w s
  | .reservedCmd7 => Sys2Proof.Machine.execReservedCmd7 s
  | .reservedCmd8F low => Sys2Proof.Machine.execReservedCmd8F low s
  | .handoff => Sys2Proof.Machine.execHandoff s
  | .writeText a d => Sys2Proof.Machine.execWriteText a d s
  | .readText a d => Sys2Proof.Machine.execReadText a d s
  | .unsupportedFunc a f d => Sys2Proof.Machine.execUnsupportedFunc a f d s
  | .exceptionReply f => Sys2Proof.Machine.execExceptionReply f s
  | .wireFrame a f d => Sys2Proof.Machine.execWireFrame a f d s

end Sys2Proof.Machine
end

