-- ==== Sys2Proof/Machine/Step.lean ====
section
/-! DEFINITION. One step of the machine (44_control.md R200, R209; 20_memory.md R59). -/

namespace Sys2Proof.Machine

open Sys2Proof

/-- A presented command is decoded and performed; one that spells no instruction is refused (R84). -/
def stepCommand (c : RawCommand) (s : State) : Host.Outcome State Fault Refusal :=
  match decodeCommand s.params c with
  | .ok i => exec i s
  | .error e => .refused (.noSuchCommand e)

/-- The step that is due. -/
def step (s : State) : Host.Outcome State Fault Refusal :=
  match s.due with
  | .handoff s' => exec .handoff s'
  | .command c s' => stepCommand c s'
  | .idle => .next s

/-- The state whose next step runs the instruction of a table word (log entry 8). -/
def State.withFetchWord (s : State) (_nbits w : Nat) : State := s.present (tableCode w)

end Sys2Proof.Machine
end

