-- ==== Sys2Proof/Safety.lean ====
section
/-! DEFINITION. What counts as a safe state and a well-behaved host, in the terms the claims use: the invariant of the
block (10_state.md R23 to R33) and the host's duties (70_reset_and_hazards.md R251, R254, R256), which the block does
not check. -/

namespace Sys2Proof.Machine

open Sys2Proof

/-- The invariant of one block under its parameters. -/
structure Block.Inv (p : Params) (b : Block) : Prop where
  /-- R25: `S.fsm = IDLE ⇔ S.buf = []`. -/
  idle_iff : b.fsm = .idle ↔ b.buf = []
  /-- R25: while accumulating there is room for another byte. -/
  room : b.fsm = .accumulating → ∀ c, p.bufCapacity = some c → b.buf.length < c
  /-- R25: while accumulating no terminator ends the buffer. -/
  unterminated : b.fsm = .accumulating → endsWithTerm b.buf = false
  /-- R22: `len(S.buf) ≤ BUF_CAP`. -/
  buf_fits : ∀ c, p.bufCapacity = some c → b.buf.length ≤ c
  /-- R26: NONE exactly outside FRAME_READY. -/
  cause_none : b.rdyCause = .none ↔ b.fsm ≠ .frameReady
  /-- R26: TERM means that the terminator ends the buffer. -/
  cause_term : b.rdyCause = .term → endsWithTerm b.buf = true
  /-- R26, R141(c): GAP means that it does not. -/
  cause_gap : b.rdyCause = .gap → endsWithTerm b.buf = false
  /-- R26, R141(c): FULL means that the buffer is full without it. -/
  cause_full : b.rdyCause = .full → p.bufCapacity = some b.buf.length ∧ endsWithTerm b.buf = false
  /-- R22, R33: `len(S.text) ≤ TEXT_CAP`. -/
  text_fits : ∀ n, p.textCap = some n → b.text.length ≤ n
  /-- R33, R180: a receiver stores no text. -/
  receiver_text : b.role = .receiver → b.text = []
  /-- R203: only ASCII runs. -/
  running_mode : b.run = .run → b.mode = .ascii
  /-- R27, R204: a running slave has a station address. -/
  running_own : b.run = .run → b.role = .slave → 1 ≤ b.own.toNat ∧ b.own.toNat ≤ 247
  /-- R200: a halted block is IDLE. -/
  halted_idle : ∀ c, b.run = .halted c → b.fsm = .idle
  /-- R23: the three halt causes. -/
  halted_cause : ∀ c, b.run = .halted c → c = .notConfigured ∨ c = .unsupportedMode ∨ c = .invalidAddress
  /-- R90: the cause of an outcome record is TERM, GAP or FULL. -/
  log_cause : ∀ r ∈ b.log, r.cause ≠ .none

/-- The invariant of the machine. -/
def State.Inv (s : State) : Prop := Block.Inv s.params s.blk

/-- The time operand of a command, if it has one (R83). -/
def timeOf (c : RawCommand) : Option Nat :=
  match readCommand c with
  | some (.rxb _ t) => some t
  | some (.rxto t) => some t
  | _ => none

/-- Host duty R256: the times of successive RXB and RXTO commands do not decrease. -/
def Safety.monotonicTimes (cs : List RawCommand) : Bool := decide ((cs.filterMap timeOf).Pairwise (· ≤ ·))

/-- Host duty R251: the block has been reset with a legal configuration before a byte is delivered. -/
def Safety.booted (s : State) : Bool := decide (s.blk.run = .run)

/-- The source's recommended bounds for the gap (R7, R28, R254): 0 to 1 s, `0 ≤ GAP ≤ 1 s / TICK`. -/
def Safety.gapRecommended (s : State) : Bool := decide (s.blk.gap ≤ s.params.ticksPerSecond)

end Sys2Proof.Machine
end

