-- ==== Sys2Proof/Certificates/Slice0/Obligations.lean ====
section
/-! DEFINITION. The statements for the provers. Where a notion of the spec can be written down without the model's own
function for it (a hex digit, a wire frame, a frame's layout, the answers a command may get), it is written here anew,
from the rule, so that a statement compares the model with the spec and not with itself. -/

namespace Sys2Proof.Spec

open Sys2Proof Sys2Proof.Machine

/-- The characters `0` to `9`, `A` to `F` in the order of their values (R73, R76). -/
def upperDigits : Bytes :=
  [0x30, 0x31, 0x32, 0x33, 0x34, 0x35, 0x36, 0x37, 0x38, 0x39, 0x41, 0x42, 0x43, 0x44, 0x45, 0x46]

/-- The characters `a` to `f` with the values 10 to 15 (R74, R76). -/
def lowerDigits : List (Byte × Nat) := [(0x61, 10), (0x62, 11), (0x63, 12), (0x64, 13), (0x65, 14), (0x66, 15)]

/-- The character is a hex character of value `n` (R74). -/
def IsDigit (lower : Bool) (c : Byte) (n : Nat) : Prop :=
  upperDigits[n]? = some c ∨ (lower = true ∧ (c, n) ∈ lowerDigits)

/-- The byte string with the marker before it and the terminator after it (R71). -/
def framed (body : Bytes) : Bytes := [0x3A] ++ body ++ [0x0D, 0x0A]

/-- The body spells the bytes, two hex characters each, most significant nibble first (R54, R74, R117). -/
def Spells (lower : Bool) (body bytes : Bytes) : Prop :=
  body.length = 2 * bytes.length ∧
    ∀ i x, bytes[i]? = some x →
      ∃ h l, body[2 * i]? = some h ∧ body[2 * i + 1]? = some l ∧
        IsDigit lower h (x.toNat / 16) ∧ IsDigit lower l (x.toNat % 16)

/-- The sum of the bytes as a natural number (R11). -/
def total (s : Bytes) : Nat := (s.map BitVec.toNat).sum

/-- The string ends with CR LF (R141). -/
def Terminated (s : Bytes) : Prop := ∃ before, s = before ++ [0x0D, 0x0A]

/-- The block is running and has a complete frame (R146). -/
def FrameWaits (s : State) : Prop := s.blk.run = .run ∧ s.blk.fsm = .frameReady

/-- The block accepts commands and performs them (R140, R200). -/
def Performs (s : State) : Prop := s.blk.run = .run ∧ s.blk.fsm ≠ .frameReady

/-- A hand-off of a slave with a legal own address is under way (R146, R204). -/
def SlaveHandoff (s : State) : Prop :=
  FrameWaits s ∧ s.blk.role = .slave ∧ 1 ≤ s.blk.own.toNat ∧ s.blk.own.toNat ≤ 247

/-- The oldest issued command is this RESET. -/
def HeadIsReset (s : State) (own : Byte) (gap : Nat) (mode : Mode) (role : Role) (rest : List RawCommand) : Prop :=
  ∃ c, s.port = c :: rest ∧ decodeCommand s.params c = .ok (.reset own gap mode role)

/-- The block after RESET's writes other than `S.run` (R39, R202). -/
def configured (b : Block) (own : Byte) (gap : Nat) (mode : Mode) (role : Role) (r : Run) : Block :=
  { b with
    run := r, own := own, gap := gap, mode := mode, role := role,
    fsm := .idle, rdyCause := .none, buf := [], tLast := 0, text := [] }

/-- The state after a command that only answers. -/
def answered (s : State) (r : Response) : State := { s with responses := s.responses ++ [r] }

/-- The state after a record is added to the log with the hand-off's cause. -/
def logged (s : State) (tag : Tag) : State := { s with blk := { s.blk with log := s.blk.log ++ [⟨s.blk.rdyCause, tag⟩] } }

/-- The state after a hand-off: the buffer cleared, the text as given, bytes added to `S.tx`, one record to the log (R146,
R147). -/
def handedOff (s : State) (text sent : Bytes) (tag : Tag) : State :=
  { s with blk := { s.blk with
      buf := [], fsm := .idle, rdyCause := .none,
      text := text, tx := s.blk.tx ++ sent, log := s.blk.log ++ [⟨s.blk.rdyCause, tag⟩] } }

/-- RESET's checks in their order, and what they answer (R202 to R205). -/
def resetVerdict (own : Byte) (mode : Mode) (role : Role) : Run × Response :=
  match mode with
  | .rtu => (.halted .unsupportedMode, .err .unsupportedMode)
  | .ascii =>
    if role = .slave ∧ ¬ (1 ≤ own.toNat ∧ own.toNat ≤ 247) then (.halted .invalidAddress, .err .invalidAddress)
    else (.run, .ok)

/-- The six commands a halted block answers with Halted (R206). -/
def IsRunCommand (i : Instr) : Prop :=
  (∃ b t, i = .rxb b t) ∨ (∃ t, i = .rxto t) ∨ i = .flush ∨ (∃ p, i = .lrc p) ∨ (∃ a f d, i = .build a f d) ∨
    ∃ w, i = .parse w

/-- The reserved commands (R207). -/
def IsReserved (i : Instr) : Prop := i = .reservedCmd7 ∨ ∃ low, i = .reservedCmd8F low

/-- The response a running block may give to a command of an opcode from 0x1 to 0x6 (R88). -/
def RunningForm (op : Nat) (r : Response) : Prop :=
  ((op = 1 ∨ op = 2 ∨ op = 3) ∧ r = .ok) ∨
    (op = 4 ∧ ∃ v, r = .val v) ∨
    (op = 5 ∧ ((∃ w, r = .wire w) ∨ r = .err .invalidAddress)) ∨
    (op = 6 ∧ ((∃ a f d, r = .fields a f d) ∨ r = .err .framingError ∨ r = .err .checksumError))

/-- The response a block in a run state may give to a command of an opcode (R88, the table). -/
def ResponseForm (r0 : Run) (op : Nat) (r : Response) : Prop :=
  (op = 0 ∧ (r = .ok ∨ r = .err .unsupportedMode ∨ r = .err .invalidAddress)) ∨
    (r0 = .run ∧ RunningForm op r) ∨
    (1 ≤ op ∧ op ≤ 6 ∧ ∃ c, r0 = .halted c ∧ r = .errHalted c) ∨
    (7 ≤ op ∧ r = .err .illegalCommand)

end Sys2Proof.Spec

open Sys2Proof Sys2Proof.Machine Sys2Proof.Spec

/-! ### The checksum -/

/-- R100: `(-sum(payload)) & 0xFF`, read on integers. -/
def Obligations.LrcIsNegatedByteSum : Prop :=
  ∀ p : Bytes, ((lrc p).toNat : Int) = (-(total p : Int)) % 256

/-- R102: the verification law, and the check of a decoded frame. -/
def Obligations.LrcVerificationLaw : Prop :=
  (∀ p : Bytes, total (p ++ [lrc p]) % 256 = 0 ∧ lrc (p ++ [lrc p]) = 0) ∧
    ∀ (p : Bytes) (c : Byte), lrc p = c ↔ total (p ++ [c]) % 256 = 0

/-! ### The codec -/

/-- R110: the address precondition of `build`. -/
def Obligations.BuildChecksTheAddress : Prop :=
  ∀ (a f : Byte) (d : Bytes),
    (a.toNat ≤ 247 → ∃ w, build a f d = .ok w) ∧ (247 < a.toNat → build a f d = .error .invalidAddress)

/-- R71, R72, R73, R111: the wire frame `build` produces, character by character. -/
def Obligations.BuildLaysOutTheWireFrame : Prop :=
  ∀ (a f : Byte) (d w : Bytes), build a f d = .ok w →
    w.length = 2 * d.length + 9 ∧
      w[0]? = some 0x3A ∧
      (∀ i x, ([a, f] ++ d ++ [lrc ([a, f] ++ d)])[i]? = some x →
        w[1 + 2 * i]? = upperDigits[x.toNat / 16]? ∧ w[2 + 2 * i]? = upperDigits[x.toNat % 16]?) ∧
      w[7 + 2 * d.length]? = some 0x0D ∧ w[8 + 2 * d.length]? = some 0x0A

/-- R114, R115, R116: exactly the strings that are no marker, even hex body of at least six, terminator. -/
def Obligations.ParseFramingErrorExactly : Prop :=
  ∀ (lower : Bool) (w : Bytes),
    parse lower w = .error .framing ↔
      ¬ ∃ body, w = framed body ∧ body.length % 2 = 0 ∧ 6 ≤ body.length ∧ ∀ c ∈ body, ∃ n, IsDigit lower c n

/-- R117, R118, R119: a well-framed string is decided by its checksum. -/
def Obligations.ParseDecidedByChecksum : Prop :=
  ∀ (lower : Bool) (body : Bytes) (a f c : Byte) (d : Bytes), Spells lower body ([a, f] ++ d ++ [c]) →
    (total ([a, f] ++ d ++ [c]) % 256 = 0 → parse lower (framed body) = .ok ⟨a, f, d⟩) ∧
      (total ([a, f] ++ d ++ [c]) % 256 ≠ 0 → parse lower (framed body) = .error .checksum)

/-- R122: the round-trip law, for every function, every data and either value of LOWER_HEX. -/
def Obligations.ParseOfBuildRoundTrip : Prop :=
  ∀ (lower : Bool) (a f : Byte) (d : Bytes), a.toNat ≤ 247 →
    ∃ w, build a f d = .ok w ∧ parse lower w = .ok ⟨a, f, d⟩

/-- With LOWER_HEX false the wire form of a frame is unique: what parses is what `build` sends. -/
def Obligations.UpperCaseFrameIsCanonical : Prop :=
  ∀ (w : Bytes) (fr : Frame), parse false w = .ok fr → fr.address.toNat ≤ 247 →
    build fr.address fr.function fr.data = .ok w

/-- D8: what parses without lower-case digits parses to the same fields with them. -/
def Obligations.LowerHexOnlyAddsFrames : Prop :=
  ∀ (w : Bytes) (fr : Frame), parse false w = .ok fr → parse true w = .ok fr

/-! ### Encodings -/

/-- Every instruction is read back from its encoding, every operand at every value the encoding admits (for the data of
the frame rows: at most DATA_MAX bytes, log entry 12). -/
def Obligations.DecodeOfEncodeEveryInstruction : Prop :=
  ∀ (p : Params) (i : Instr), i.wf p = true → decode p (encode i) = .ok i

/-- The decoder yields only instructions that exist under the parameters. For commands the bounds are those of R83, R84;
that the rows WRITE_TEXT, READ_TEXT, UNSUPPORTED_FUNC and WIRE_FRAME hold at most DATA_MAX bytes of data is the model's
reading of R8 and R172's corner case (log entry 12). -/
def Obligations.DecodedInstructionsAreWellFormed : Prop :=
  ∀ (p : Params) (c : Code) (i : Instr), decode p c = .ok i → i.wf p = true

/-- R84 with R8: `DATA_MAX = (BUF_CAP − 9) div 2`, `LRC_MAX = DATA_MAX + 3`; longer operands spell no command, with no
capacity every length is admitted, and no meaning is given to what does not exist. The last clause covers the frame rows
as well, whose bound is the model's reading of R8 and R172's corner case (log entry 12), not R84. -/
def Obligations.OverlongOperandsSpellNoCommand : Prop :=
  (∀ (k : Nat) (lower : Bool) (tick : Nat) (a f : Byte) (x : Bytes),
    let p : Params := ⟨.finite k, lower, tick⟩
    (k / 2 + 3 < x.length ↔ decode p (.command ⟨0x4, [.bytes x]⟩) = .error .tooLong) ∧
      (k / 2 < x.length ↔ decode p (.command ⟨0x5, [.byte a, .byte f, .bytes x]⟩) = .error .tooLong) ∧
      (9 + k < x.length ↔ decode p (.command ⟨0x6, [.bytes x]⟩) = .error .tooLong)) ∧
    (∀ (lower : Bool) (tick : Nat) (a f : Byte) (x : Bytes),
      let p : Params := ⟨.unbounded, lower, tick⟩
      decode p (.command ⟨0x4, [.bytes x]⟩) = .ok (.lrc x) ∧
        decode p (.command ⟨0x5, [.byte a, .byte f, .bytes x]⟩) = .ok (.build a f x) ∧
        decode p (.command ⟨0x6, [.bytes x]⟩) = .ok (.parse x)) ∧
    ∀ (s : State) (i : Instr), i.wf s.params = false → exec i s = .refused .illFormed

/-- R78, R79: 0x01 and 0x02 select their operations, every other function byte is unsupported (for data of at most
DATA_MAX bytes, log entry 12). -/
def Obligations.FunctionByteSelectsOperation : Prop :=
  ∀ (p : Params) (a f : Byte) (d : Bytes), within d p.dataMax = true →
    (f = 0x01 → decode p (.received ⟨a, f, d⟩) = .ok (.writeText a d)) ∧
      (f = 0x02 → decode p (.received ⟨a, f, d⟩) = .ok (.readText a d)) ∧
      (f ≠ 0x01 → f ≠ 0x02 → decode p (.received ⟨a, f, d⟩) = .ok (.unsupportedFunc a f d))

/-- Words of the spec's own tables decode to the instructions they stand for (R82, V-RST, L1-A). -/
def Obligations.WrittenOutWordsDecode : Prop :=
  let p : Params := ⟨.finite 4, false, 0⟩
  decode p (.command ⟨0b0000#4, [.byte 0x05, .nat 10, .bit 0, .bit 1]⟩) = .ok (.reset 0x05 10 .ascii .receiver) ∧
    decode p (.command ⟨0b0001#4, [.byte 0x3A, .nat 100]⟩) = .ok (.rxb 0x3A 100) ∧
    decode p (.command ⟨0b1001#4, []⟩) = .ok (.reservedCmd8F 1) ∧
    decode p (.wire [0x3A, 0x30, 0x35, 0x30, 0x31, 0x34, 0x38, 0x34, 0x39, 0x36, 0x39, 0x0D, 0x0A]) =
      .ok (.wireFrame 0x05 0x01 [0x48, 0x49]) ∧
    decode p (.reply 0x83) = .ok (.exceptionReply 0x83)

/-! ### The step -/

/-- A step runs the command the decoder reads at the head of the queue, which leaves the queue (the queue `port` of
issued commands is the model's: log entry 2). -/
def Obligations.StepRunsTheDecodedCommand : Prop :=
  ∀ (s : State) (c : RawCommand) (rest : List RawCommand) (i : Instr),
    ¬ FrameWaits s → s.port = c :: rest → decodeCommand s.params c = .ok i →
    step s = exec i { s with port := rest }

/-- R84, R237: a presented record that spells no command is refused, never given a meaning; without a command the block
holds its state (the queue of commands and the step that waits are the model's: log entry 2). -/
def Obligations.StepWithoutACommandToRun : Prop :=
  ∀ s : State, ¬ FrameWaits s →
    (∀ c rest e, s.port = c :: rest → decodeCommand s.params c = .error e → step s = .refused (.noSuchCommand e)) ∧
      (s.port = [] → step s = .next s)

/-- R200: a waiting frame is handed off before any command but RESET. -/
def Obligations.StepHandsOffAWaitingFrame : Prop :=
  ∀ s : State, FrameWaits s → (∀ own gap mode role rest, ¬ HeadIsReset s own gap mode role rest) →
    step s = exec .handoff s

/-- R208: with a RESET at hand, either order, and no third. Which one is a free value (log entry 4): both clauses hold
whatever it is. -/
def Obligations.ResetRacesHandoff : Prop :=
  ∀ (s : State) (own : Byte) (gap : Nat) (mode : Mode) (role : Role) (rest : List RawCommand),
    FrameWaits s → HeadIsReset s own gap mode role rest →
    (Config.resetFirst s.choices = true →
      ∃ t, step s = .next t ∧ exec (.reset own gap mode role) { s with port := rest, choices := s.choices + 1 } = .next t ∧
        t.blk.buf = [] ∧ t.blk.log = s.blk.log ∧ t.blk.tx = s.blk.tx) ∧
    (Config.resetFirst s.choices = false →
      ∃ t, step s = .next t ∧ exec .handoff { s with choices := s.choices + 1 } = .next t ∧
        step t = exec (.reset own gap mode role) { t with port := rest })

/-- R140, R200: every other command is held, not performed and not answered: it goes back to the head of the queue (log
entry 2). -/
def Obligations.CommandsAreHeldWhileAFrameWaits : Prop :=
  ∀ (s : State) (i : Instr), FrameWaits s → IsRunCommand i ∨ IsReserved i → i.wf s.params = true →
    ∃ c, encodeCommand i = some c ∧ exec i s = .next { s with port := c :: s.port }

/-- The block never stays in FRAME_READY: the next step leaves it in IDLE (R146, R200, R208). -/
def Obligations.WaitingFrameIsGoneAfterOneStep : Prop :=
  ∀ s : State, FrameWaits s → ∃ t, step s = .next t ∧ t.blk.fsm = .idle ∧ t.blk.buf = []

/-- No state is stuck: a step faults never, and refuses only a record that spells no command. -/
def Obligations.EveryStepAnswersANextState : Prop :=
  ∀ s : State, (∀ c rest, s.port = c :: rest → ∃ i, decodeCommand s.params c = .ok i) → ∃ t, step s = .next t

/-! ### The assembler -/

/-- R141: RXB, its three boundaries in their order; refused while halted. -/
def Obligations.RxbAppendsAndDetectsBoundary : Prop :=
  ∀ (s : State) (v : Byte) (t : Nat),
    (Performs s →
      let nb := s.blk.buf ++ [v]
      let out := fun f c => ({ s with
        blk := { s.blk with buf := nb, tLast := t, fsm := f, rdyCause := c }
        responses := s.responses ++ [.ok] } : State)
      (Terminated nb → exec (.rxb v t) s = .next (out .frameReady .term)) ∧
        (¬ Terminated nb → s.params.bufCapacity = some nb.length → exec (.rxb v t) s = .next (out .frameReady .full)) ∧
        (¬ Terminated nb → s.params.bufCapacity ≠ some nb.length →
          exec (.rxb v t) s = .next (out .accumulating s.blk.rdyCause))) ∧
      ∀ c, s.blk.run = .halted c → exec (.rxb v t) s = .next (answered s (.errHalted c))

/-- R142 with R143: RXTO ends the frame exactly when the silence, saturating at 0, has reached the gap; refused while
halted. -/
def Obligations.RxtoEndsFrameExactlyAtGap : Prop :=
  ∀ (s : State) (t : Nat),
    (Performs s →
      (s.blk.fsm = .accumulating ∧ (s.blk.tLast + s.blk.gap ≤ t ∨ s.blk.gap = 0) →
        exec (.rxto t) s = .next { s with
          blk := { s.blk with fsm := .frameReady, rdyCause := .gap }
          responses := s.responses ++ [.ok] }) ∧
        (¬ (s.blk.fsm = .accumulating ∧ (s.blk.tLast + s.blk.gap ≤ t ∨ s.blk.gap = 0)) →
          exec (.rxto t) s = .next (answered s .ok))) ∧
      ∀ c, s.blk.run = .halted c → exec (.rxto t) s = .next (answered s (.errHalted c))

/-- R144: FLUSH discards the buffer without an outcome; refused while halted. -/
def Obligations.FlushDiscardsTheBuffer : Prop :=
  ∀ s : State,
    (Performs s →
      exec .flush s = .next { s with
        blk := { s.blk with buf := [], fsm := .idle, rdyCause := .none }
        responses := s.responses ++ [.ok] }) ∧
      ∀ c, s.blk.run = .halted c → exec .flush s = .next (answered s (.errHalted c))

/-- R146, R147, R35: whatever the frame, HANDOFF clears the buffer and adds exactly one record with the frame's cause. The
text stays or becomes the data of the WriteText frame a slave received; `S.tx` stays or grows by one frame that `build`
made for the own address. The configuration, the time and the host's side are as they were. -/
def Obligations.HandoffClearsAndLogsOnce : Prop :=
  ∀ s : State, FrameWaits s →
    ∃ t tag, exec .handoff s = .next t ∧
      t.blk.buf = [] ∧ t.blk.fsm = .idle ∧ t.blk.rdyCause = .none ∧
      t.blk.log = s.blk.log ++ [⟨s.blk.rdyCause, tag⟩] ∧
      (t.blk.text = s.blk.text ∨
        s.blk.role = .slave ∧ ∃ a, (a = 0 ∨ a = s.blk.own) ∧
          parse s.params.lowerHex s.blk.buf = .ok ⟨a, 0x01, t.blk.text⟩) ∧
      (t.blk.tx = s.blk.tx ∨
        s.blk.role = .slave ∧ ∃ f d w, build s.blk.own f d = .ok w ∧ t.blk.tx = s.blk.tx ++ w) ∧
      t.blk.run = s.blk.run ∧ t.blk.own = s.blk.own ∧ t.blk.gap = s.blk.gap ∧ t.blk.mode = s.blk.mode ∧
      t.blk.role = s.blk.role ∧ t.blk.tLast = s.blk.tLast ∧
      t.params = s.params ∧ t.port = s.port ∧ t.responses = s.responses ∧ t.choices = s.choices

/-- R170, R180: a buffer that does not parse is logged and discarded, without a reply, in either role. -/
def Obligations.HandoffRejectsWhatDoesNotParse : Prop :=
  ∀ (s : State) (k : ParseError), FrameWaits s → parse s.params.lowerHex s.blk.buf = .error k →
    exec .handoff s = .next { s with
      blk := { s.blk with
        buf := [], fsm := .idle, rdyCause := .none
        log := s.blk.log ++ [⟨s.blk.rdyCause, .rejected k⟩] } }

/-- R146: a buffer that parses is handed to the WIRE_FRAME meaning, and then cleared, in the same step. That
the row WIRE_FRAME stands for what a hand-off does with a frame is the model's reading (log entry 6). -/
def Obligations.HandoffRunsTheReceivedFrame : Prop :=
  ∀ (s : State) (a f : Byte) (d : Bytes), s.Inv → FrameWaits s →
    parse s.params.lowerHex s.blk.buf = .ok ⟨a, f, d⟩ →
    ∃ u, exec (.wireFrame a f d) s = .next u ∧
      exec .handoff s = .next { u with blk := { u.blk with buf := [], fsm := .idle, rdyCause := .none } }

/-- R146, corner cases: a frame ended by silence or by a full buffer is always a framing error. -/
def Obligations.UnterminatedFramesAreFramingErrors : Prop :=
  ∀ s : State, s.Inv → FrameWaits s → s.blk.rdyCause = .gap ∨ s.blk.rdyCause = .full →
    exec .handoff s = .next { s with
      blk := { s.blk with
        buf := [], fsm := .idle, rdyCause := .none
        log := s.blk.log ++ [⟨s.blk.rdyCause, .rejected .framing⟩] } }

/-- R149, R255: after a frame that lost its terminator, one RXTO that sees the silence brings the block back to IDLE. -/
def Obligations.SilenceRecoversFromGarbage : Prop :=
  ∀ (s : State) (now : Nat), s.Inv → s.blk.run = .run → s.blk.fsm = .accumulating →
    s.blk.tLast + s.blk.gap ≤ now → s.port = [⟨0x2, [.nat now]⟩] →
    ∃ u t, step s = .next u ∧ step u = .next t ∧ t.blk.fsm = .idle ∧ t.blk.buf = [] ∧
      t.blk.log = s.blk.log ++ [⟨.gap, .rejected .framing⟩] ∧ t.blk.tx = s.blk.tx ∧ t.blk.text = s.blk.text

/-! ### The dispatcher -/

/-- R178, R180, R201: in role SLAVE a frame runs the operation its function byte selects; in role RECEIVER it is
reported, and nothing else changes. The rows' meanings as parts of a hand-off are the model's reading (log entry
6), and so is the bound on their data (log entry 12). -/
def Obligations.WireFrameDispatchesOrReports : Prop :=
  ∀ (s : State) (a f : Byte) (d : Bytes), FrameWaits s → within d s.params.dataMax = true →
    (s.blk.role = .slave →
      (f = 0x01 → exec (.wireFrame a f d) s = exec (.writeText a d) s) ∧
        (f = 0x02 → exec (.wireFrame a f d) s = exec (.readText a d) s) ∧
        (f ≠ 0x01 → f ≠ 0x02 → exec (.wireFrame a f d) s = exec (.unsupportedFunc a f d) s)) ∧
      (s.blk.role = .receiver → exec (.wireFrame a f d) s = .next (logged s (.frame a f d)))

/-- R170 to R177: the whole hand-off of a slave, frame by frame. -/
def Obligations.SlaveHandoffActsOnEachFrame : Prop :=
  ∀ s : State, SlaveHandoff s →
    (∀ k, parse s.params.lowerHex s.blk.buf = .error k →
      exec .handoff s = .next (handedOff s s.blk.text [] (.rejected k))) ∧
    ∀ (a f : Byte) (d : Bytes), parse s.params.lowerHex s.blk.buf = .ok ⟨a, f, d⟩ →
      (a ≠ 0 → a ≠ s.blk.own → exec .handoff s = .next (handedOff s s.blk.text [] (.ignoredNotAddressed a))) ∧
      (f = 0x01 → a = 0 → exec .handoff s = .next (handedOff s d [] (.acceptedWriteText 0))) ∧
      (f = 0x01 → a = s.blk.own → ∃ w, build s.blk.own 0x01 [0x4F, 0x4B] = .ok w ∧
        exec .handoff s = .next (handedOff s d w (.acceptedWriteText s.blk.own))) ∧
      (f = 0x02 → a = 0 → exec .handoff s = .next (handedOff s s.blk.text [] .ignoredBroadcastRead)) ∧
      (f = 0x02 → a = s.blk.own → ∃ w, build s.blk.own 0x02 s.blk.text = .ok w ∧
        exec .handoff s = .next (handedOff s s.blk.text w (.acceptedReadText s.blk.own))) ∧
      (f ≠ 0x01 → f ≠ 0x02 → a = 0 →
        exec .handoff s = .next (handedOff s s.blk.text [] (.ignoredBroadcastUnsupported f))) ∧
      (f ≠ 0x01 → f ≠ 0x02 → a = s.blk.own → ∃ w, build s.blk.own (f ||| 0x80) [0x30, 0x31] = .ok w ∧
        exec .handoff s = .next (handedOff s s.blk.text w (.rejectedIllegalFunction f)))

/-- R171: a frame for another station is logged and otherwise ignored, whatever its function; for the rows by
themselves, as log entries 6 and 12 read them. -/
def Obligations.OtherStationsFramesAreIgnored : Prop :=
  ∀ (s : State) (i : Instr) (a f : Byte) (d : Bytes), SlaveHandoff s → a ≠ 0 → a ≠ s.blk.own →
    i = .writeText a d ∨ i = .readText a d ∨ i = .unsupportedFunc a f d ∨ i = .wireFrame a f d →
    i.wf s.params = true →
    exec i s = .next (logged s (.ignoredNotAddressed a))

/-- R172, R173: WriteText stores; only a unicast is acknowledged (the row by itself, as log entries 6 and 12 read it). -/
def Obligations.WriteTextStoresAndAcknowledges : Prop :=
  ∀ (s : State) (d : Bytes), SlaveHandoff s → within d s.params.dataMax = true →
    exec (.writeText 0 d) s = .next { s with
        blk := { s.blk with text := d, log := s.blk.log ++ [⟨s.blk.rdyCause, .acceptedWriteText 0⟩] } } ∧
      ∃ w, build s.blk.own 0x01 [0x4F, 0x4B] = .ok w ∧
        exec (.writeText s.blk.own d) s = .next { s with
          blk := { s.blk with
            text := d, tx := s.blk.tx ++ w
            log := s.blk.log ++ [⟨s.blk.rdyCause, .acceptedWriteText s.blk.own⟩] } }

/-- R174, R175: ReadText is answered with the stored text, never to a broadcast, whatever data the request carries (the
row by itself, as log entries 6 and 12 read it). -/
def Obligations.ReadTextAnswersUnicastOnly : Prop :=
  ∀ (s : State) (d : Bytes), SlaveHandoff s → within d s.params.dataMax = true →
    exec (.readText 0 d) s = .next (logged s .ignoredBroadcastRead) ∧
      ∃ w, build s.blk.own 0x02 s.blk.text = .ok w ∧
        exec (.readText s.blk.own d) s = .next { s with
          blk := { s.blk with
            tx := s.blk.tx ++ w
            log := s.blk.log ++ [⟨s.blk.rdyCause, .acceptedReadText s.blk.own⟩] } }

/-- R176, R177: an unsupported function gets the exception reply with the fixed payload "01", never when broadcast (the
row by itself, as log entries 6 and 12 read it). -/
def Obligations.UnsupportedFunctionGetsException : Prop :=
  ∀ (s : State) (f : Byte) (d : Bytes), SlaveHandoff s → within d s.params.dataMax = true → f ≠ 0x01 → f ≠ 0x02 →
    exec (.unsupportedFunc 0 f d) s = .next (logged s (.ignoredBroadcastUnsupported f)) ∧
      ∃ w, build s.blk.own (f ||| 0x80) [0x30, 0x31] = .ok w ∧
        exec (.unsupportedFunc s.blk.own f d) s = .next { s with
          blk := { s.blk with
            tx := s.blk.tx ++ w
            log := s.blk.log ++ [⟨s.blk.rdyCause, .rejectedIllegalFunction f⟩] } }

/-- The exception reply is `build(S.own, f, "01")` for its function byte `f`, bit 7 set, appended whole to `S.tx`
(R176; the row by itself, as log entry 6 reads it). -/
def Obligations.ExceptionReplyIsAppendedWhole : Prop :=
  ∀ (s : State) (f : Byte), SlaveHandoff s → f.msb = true →
    ∃ w, build s.blk.own f [0x30, 0x31] = .ok w ∧
      exec (.exceptionReply f) s = .next { s with blk := { s.blk with tx := s.blk.tx ++ w } }

/-- R179(a): a frame to address 0 never causes a reply. -/
def Obligations.BroadcastsAreNeverAnswered : Prop :=
  ∀ (s t : State) (f : Byte) (d : Bytes), parse s.params.lowerHex s.blk.buf = .ok ⟨0, f, d⟩ →
    exec .handoff s = .next t → t.blk.tx = s.blk.tx

/-- R179(b), (c), (d): a hand-off sends nothing or one whole frame, and that frame carries the own address. -/
def Obligations.RepliesCarryTheOwnAddress : Prop :=
  ∀ s t : State, s.Inv → exec .handoff s = .next t →
    t.blk.tx = s.blk.tx ∨
      ∃ w f d, t.blk.tx = s.blk.tx ++ w ∧ parse false w = .ok ⟨s.blk.own, f, d⟩

/-- R173: repeated WriteText with the same data leaves the text unchanged, and each one is acknowledged (the row
WRITE_TEXT as log entry 6 reads it). -/
def Obligations.RepeatedWriteTextIsIdempotent : Prop :=
  ∀ (s t u : State) (d : Bytes), SlaveHandoff s → exec (.writeText s.blk.own d) s = .next t →
    exec (.writeText s.blk.own d) t = .next u →
    t.blk.text = d ∧ u.blk.text = d ∧
      ∃ w, w ≠ [] ∧ t.blk.tx = s.blk.tx ++ w ∧ u.blk.tx = t.blk.tx ++ w

/-- R180: a receiver reports what it received, whatever the address, and writes nothing but the log. -/
def Obligations.ReceiverReportsEveryFrame : Prop :=
  ∀ s : State, FrameWaits s → s.blk.role = .receiver →
    (∀ k, parse s.params.lowerHex s.blk.buf = .error k → exec .handoff s = .next (handedOff s s.blk.text [] (.rejected k))) ∧
      ∀ a f d, parse s.params.lowerHex s.blk.buf = .ok ⟨a, f, d⟩ →
        exec .handoff s = .next (handedOff s s.blk.text [] (.frame a f d))

/-- R146, R178: the internal rows have no effect outside a hand-off, and the dispatcher's none outside role SLAVE: the
model faults there (log entry 6). -/
def Obligations.InternalRowsNeedAWaitingFrame : Prop :=
  ∀ (s : State) (i : Instr), i.wf s.params = true →
    ((i = .handoff ∨ ∃ a f d, i = .wireFrame a f d) → ¬ FrameWaits s → exec i s = .fault .stepNotEnabled) ∧
      (((∃ a d, i = .writeText a d) ∨ (∃ a d, i = .readText a d) ∨ (∃ a f d, i = .unsupportedFunc a f d) ∨
        ∃ f, i = .exceptionReply f) →
        ¬ (FrameWaits s ∧ s.blk.role = .slave) → exec i s = .fault .stepNotEnabled)

/-! ### Control -/

/-- R202, R203, R205 with R39: RESET writes every field but `S.tx` and `S.log`, in every state; RTU halts, before the
address is looked at; an own address outside 1 to 247 halts a slave; everything else runs. -/
def Obligations.ResetConfiguresOrHalts : Prop :=
  ∀ (s : State) (own : Byte) (gap : Nat),
    (∀ role, (role = .slave → 1 ≤ own.toNat ∧ own.toNat ≤ 247) →
      exec (.reset own gap .ascii role) s = .next { s with
        blk := configured s.blk own gap .ascii role .run
        responses := s.responses ++ [.ok] }) ∧
    (∀ role, exec (.reset own gap .rtu role) s = .next { s with
      blk := configured s.blk own gap .rtu role (.halted .unsupportedMode)
      responses := s.responses ++ [.err .unsupportedMode] }) ∧
    (own = 0 ∨ 248 ≤ own.toNat →
      exec (.reset own gap .ascii .slave) s = .next { s with
        blk := configured s.blk own gap .ascii .slave (.halted .invalidAddress)
        responses := s.responses ++ [.err .invalidAddress] })

/-- R206: a halted block answers Halted with its cause and changes nothing; RESET is performed; no step of a halted block
appends to `S.tx` or `S.log`. -/
def Obligations.HaltedBlockRefusesCommands : Prop :=
  ∀ (s : State) (c : Status), s.blk.run = .halted c →
    (∀ i, IsRunCommand i → i.wf s.params = true → exec i s = .next (answered s (.errHalted c))) ∧
      (∀ own gap mode role, exec (.reset own gap mode role) s = .next { s with
        blk := configured s.blk own gap mode role (resetVerdict own mode role).1
        responses := s.responses ++ [(resetVerdict own mode role).2] }) ∧
      ∀ t, step s = .next t → t.blk.tx = s.blk.tx ∧ t.blk.log = s.blk.log

/-- R85: a reserved opcode is a command, and is answered IllegalCommand in every run state, with no state change. -/
def Obligations.ReservedOpcodesAnswerIllegalCommand : Prop :=
  (∀ (p : Params) (op : BitVec 4), 7 ≤ op.toNat → ∃ i, IsReserved i ∧ decode p (.command ⟨op, []⟩) = .ok i) ∧
    ∀ (s : State) (i : Instr), ¬ FrameWaits s → IsReserved i → exec i s = .next (answered s (.err .illegalCommand))

/-- R231: only a RESET with a legal configuration leaves HALTED. -/
def Obligations.OnlyALegalResetLeavesHalted : Prop :=
  ∀ (s t : State) (c : Status), s.blk.run = .halted c → step s = .next t → t.blk.run = .run →
    ∃ own gap role, HeadIsReset s own gap .ascii role t.port ∧ (role = .slave → 1 ≤ own.toNat ∧ own.toNat ≤ 247)

/-! ### The pure commands -/

/-- R101: LRC; refused while halted. -/
def Obligations.LrcCommandAnswersChecksum : Prop :=
  ∀ (s : State) (p : Bytes), within p s.params.lrcMax = true →
    (Performs s →
      exec (.lrc p) s = .next (answered s (.val (lrc p))) ∧ ((lrc p).toNat + total p) % 256 = 0) ∧
      ∀ c, s.blk.run = .halted c → exec (.lrc p) s = .next (answered s (.errHalted c))

/-- R113: BUILD, whose frame always fits the receive buffer; refused while halted, before the address is looked at. -/
def Obligations.BuildCommandAnswersWireFrame : Prop :=
  ∀ (s : State) (a f : Byte) (d : Bytes), within d s.params.dataMax = true →
    (Performs s →
      (a.toNat ≤ 247 → ∃ w, build a f d = .ok w ∧ (∀ c, s.params.bufCapacity = some c → w.length ≤ c) ∧
        exec (.build a f d) s = .next (answered s (.wire w))) ∧
        (247 < a.toNat → exec (.build a f d) s = .next (answered s (.err .invalidAddress)))) ∧
      ∀ c, s.blk.run = .halted c → exec (.build a f d) s = .next (answered s (.errHalted c))

/-- R121: PARSE; refused while halted. -/
def Obligations.ParseCommandAnswersFieldsOrKind : Prop :=
  ∀ (s : State) (w : Bytes), within w s.params.bufCapacity = true →
    (Performs s →
      (∀ a f d, parse s.params.lowerHex w = .ok ⟨a, f, d⟩ → exec (.parse w) s = .next (answered s (.fields a f d))) ∧
        (parse s.params.lowerHex w = .error .framing → exec (.parse w) s = .next (answered s (.err .framingError))) ∧
        (parse s.params.lowerHex w = .error .checksum → exec (.parse w) s = .next (answered s (.err .checksumError)))) ∧
      ∀ c, s.blk.run = .halted c → exec (.parse w) s = .next (answered s (.errHalted c))

/-- R58: LRC, BUILD and PARSE leave the block as it was, in every state. -/
def Obligations.PureCommandsLeaveTheBlockAlone : Prop :=
  ∀ (s t : State) (i : Instr),
    (∃ p, i = .lrc p) ∨ (∃ a f d, i = .build a f d) ∨ (∃ w, i = .parse w) →
    exec i s = .next t → t.blk = s.blk

/-! ### The whole machine -/

/-- R38: the values at power-on. -/
def Obligations.PowerOnValues : Prop :=
  State.reset.blk =
      { run := .halted .notConfigured, own := 0, gap := 0, mode := .ascii, role := .slave, fsm := .idle,
        rdyCause := .none, buf := [], tLast := 0, text := [], tx := [], log := [] }

/-- The invariant holds at power-on. -/
def Obligations.InvariantHoldsAtPowerOn : Prop :=
  State.reset.Inv

/-- R25, R26 and the bounds of R22: every step keeps the invariant. -/
def Obligations.EveryStepKeepsTheInvariant : Prop :=
  ∀ s t : State, s.Inv → step s = .next t → t.Inv

/-- R34, R53: `S.tx` and `S.log` are append-only; only a HANDOFF appends to `S.tx`, and only one whole frame that `build`
made. (That responses are only added is part of EveryAcceptedCommandIsAnsweredOnce.) -/
def Obligations.StreamsOnlyGrow : Prop :=
  ∀ s t : State, step s = .next t →
    (t.blk.tx = s.blk.tx ∨
      (∃ n, exec .handoff { s with choices := n } = .next t) ∧
        ∃ f d w, build s.blk.own f d = .ok w ∧ t.blk.tx = s.blk.tx ++ w) ∧
      ∃ x, t.blk.log = s.blk.log ++ x

/-- R35: every HANDOFF appends exactly one record to the log, no other step appends to it, and nothing is removed. -/
def Obligations.LogGrowsOnlyAtHandoff : Prop :=
  (∀ s t : State, exec .handoff s = .next t → ∃ tag, t.blk.log = s.blk.log ++ [⟨s.blk.rdyCause, tag⟩]) ∧
    ∀ s t : State, step s = .next t →
      t.blk.log = s.blk.log ∨
        ((∃ n, exec .handoff { s with choices := n } = .next t) ∧
          ∃ tag, t.blk.log = s.blk.log ++ [⟨s.blk.rdyCause, tag⟩])

/-- R27 to R30: only RESET changes the configuration. -/
def Obligations.OnlyResetChangesConfiguration : Prop :=
  ∀ s t : State, step s = .next t →
    (t.blk.own = s.blk.own ∧ t.blk.gap = s.blk.gap ∧ t.blk.mode = s.blk.mode ∧ t.blk.role = s.blk.role ∧
      t.blk.run = s.blk.run) ∨
      HeadIsReset s t.blk.own t.blk.gap t.blk.mode t.blk.role t.port

/-- R33: the stored text changes only by an accepted WriteText, in full, or by RESET. -/
def Obligations.OnlyWriteTextOrResetChangesText : Prop :=
  ∀ s t : State, step s = .next t →
    t.blk.text = s.blk.text ∨
      (t.blk.text = [] ∧ ∃ own gap mode role, HeadIsReset s own gap mode role t.port) ∨
      (FrameWaits s ∧ s.blk.role = .slave ∧ ∃ a, (a = 0 ∨ a = s.blk.own) ∧
        parse s.params.lowerHex s.blk.buf = .ok ⟨a, 0x01, t.blk.text⟩)

/-- R88: a step answers nothing and takes no command, or it takes the oldest command and answers it once, in a form the
table gives its opcode. -/
def Obligations.EveryAcceptedCommandIsAnsweredOnce : Prop :=
  ∀ s t : State, step s = .next t →
    (t.port = s.port ∧ t.responses = s.responses) ∨
      ∃ c r, s.port = c :: t.port ∧ t.responses = s.responses ++ [r] ∧ ResponseForm s.blk.run c.op.toNat r

/-- The parameters are fixed (R5 to R7; kept in State by log entry 1): no instruction and no step changes them. -/
def Obligations.ParametersAreFixed : Prop :=
  (∀ (i : Instr) (s t : State), exec i s = .next t → t.params = s.params) ∧
    ∀ s t : State, step s = .next t → t.params = s.params
end

