-- ==== Sys2Proof/Laws/Codec.lean ====
section
/-! SUPPORT. What the codec's functions do, said once each: lengths, digits, the hex round trip, and the shape of the
strings `parse` accepts. -/

namespace Sys2Proof.Machine

open Sys2Proof

theorem byteSum_append (s t : Bytes) : byteSum (s ++ t) = byteSum s + byteSum t := by
  simp [byteSum]

theorem lrc_toNat (p : Bytes) : (lrc p).toNat = (256 - byteSum p % 256) % 256 := by
  simp [lrc]

/-- The checksum is the byte that completes the sum to a multiple of 256 (R102). -/
theorem lrc_eq_iff (p : Bytes) (c : Byte) : lrc p = c ↔ (byteSum p + c.toNat) % 256 = 0 := by
  have hc := c.isLt
  rw [← BitVec.toNat_inj, lrc_toNat]
  omega

@[simp] theorem hexByte_length (v : Byte) : (hexByte v).length = 2 := rfl

@[simp] theorem hexU_nil : hexU [] = [] := rfl

theorem hexU_cons (v : Byte) (s : Bytes) :
    hexU (v :: s) = digitU (v.extractLsb' 4 4) :: digitU (v.extractLsb' 0 4) :: hexU s := rfl

@[simp] theorem hexU_length (s : Bytes) : (hexU s).length = 2 * s.length := by
  induction s with
  | nil => rfl
  | cons v s ih => simp [hexU_cons, ih]; omega

/-- A digit the encoder writes is read back, with either value of LOWER_HEX (R73, R74). -/
theorem nib_digitU (lower : Bool) (k : BitVec 4) : nib lower (digitU k) = some k.toNat := by
  cases lower <;> revert k <;> decide

theorem nib_lt {lower : Bool} {c : Byte} {n : Nat} (h : nib lower c = some n) : n < 16 := by
  unfold nib at h
  split at h
  · cases h; omega
  · split at h
    · cases h; omega
    · split at h
      · cases h; omega
      · cases h

theorem nibbles_byte (v : Byte) :
    BitVec.ofNat 8 ((v.extractLsb' 4 4).toNat * 16 + (v.extractLsb' 0 4).toNat) = v := by
  revert v; decide

/-- The hex round trip (R73, R74). -/
theorem hexDecode_hexU (lower : Bool) (s : Bytes) : hexDecode lower (hexU s) = some s := by
  induction s with
  | nil => rfl
  | cons v s ih => simp only [hexU_cons, hexDecode, nib_digitU, ih, nibbles_byte]

/-- Decoding halves the length. -/
theorem hexDecode_length {lower : Bool} : ∀ {s b : Bytes}, hexDecode lower s = some b → s.length = 2 * b.length
  | [], b, h => by cases h; rfl
  | [_], b, h => by cases h
  | x :: y :: s, b, h => by
    simp only [hexDecode] at h
    split at h
    · rename_i _ _ b' _ _ hb
      cases h
      have := hexDecode_length hb
      simp only [List.length_cons]; omega
    · cases h

/-- A body of even length whose characters are all hex digits decodes (R116). -/
theorem hexDecode_of_digits {lower : Bool} :
    ∀ {s : Bytes}, s.length % 2 = 0 → (∀ c ∈ s, ∃ n, nib lower c = some n) → ∃ b, hexDecode lower s = some b
  | [], _, _ => ⟨[], rfl⟩
  | [_], h, _ => by simp at h
  | x :: y :: s, h, hc => by
    obtain ⟨b, hb⟩ := hexDecode_of_digits (lower := lower) (s := s) (by simp at h; omega)
      (fun c hcs => hc c (by simp [hcs]))
    obtain ⟨n, hn⟩ := hc x (by simp)
    obtain ⟨m, hm⟩ := hc y (by simp)
    exact ⟨BitVec.ofNat 8 (n * 16 + m) :: b, by simp only [hexDecode, hn, hm, hb]⟩

/-- A body that decodes holds hex digits only (R116). -/
theorem digits_of_hexDecode {lower : Bool} :
    ∀ {s b : Bytes}, hexDecode lower s = some b → ∀ c ∈ s, ∃ n, nib lower c = some n
  | [], _, _ => by simp
  | [_], _, h => by cases h
  | x :: y :: s, b, h => by
    simp only [hexDecode] at h
    split at h
    · rename_i n m b' hn hm hb
      intro c hc
      simp only [List.mem_cons] at hc
      obtain rfl | rfl | hc := hc
      · exact ⟨_, hn⟩
      · exact ⟨_, hm⟩
      · exact digits_of_hexDecode hb c hc
    · cases h

theorem last2_append (s : Bytes) (x y : Byte) : last2 (s ++ [x, y]) = [x, y] := by
  simp [last2]

/-- `endsWithTerm` is "ends with CR LF" (R141). -/
theorem endsWithTerm_iff (s : Bytes) : endsWithTerm s = true ↔ ∃ t, s = t ++ [cr, lf] := by
  constructor
  · intro h
    simp only [endsWithTerm, Bool.and_eq_true, decide_eq_true_eq] at h
    refine ⟨s.take (s.length - 2), ?_⟩
    conv_lhs => rw [← List.take_append_drop (s.length - 2) s]
    rw [← h.2]; rfl
  · rintro ⟨t, rfl⟩
    simp [endsWithTerm, last2_append]

/-- A string with marker and terminator in place (R114). -/
theorem framed_shape (w : Bytes) :
    (w.head? = some marker ∧ ¬ (w.length < 3 ∨ last2 w ≠ [cr, lf])) ↔ ∃ body, w = marker :: (body ++ [cr, lf]) := by
  constructor
  · rintro ⟨hm, h⟩
    push Not at h
    obtain ⟨hl, h2⟩ := h
    obtain ⟨t, ht⟩ := (endsWithTerm_iff w).1 (by simp [endsWithTerm, h2]; omega)
    cases t with
    | nil => simp [ht] at hl
    | cons x t =>
      subst ht
      simp only [List.cons_append, List.head?_cons, Option.some.injEq] at hm
      exact ⟨t, by simp [hm]⟩
  · rintro ⟨body, rfl⟩
    refine ⟨rfl, ?_⟩
    push Not
    refine ⟨by simp, ?_⟩
    rw [← List.cons_append, last2_append]

theorem body_of_framed (body : Bytes) :
    ((marker :: (body ++ [cr, lf])).drop 1).take ((marker :: (body ++ [cr, lf])).length - 3) = body := by
  simp

/-- `parse` on a string with marker and terminator (R115 to R118). -/
theorem parse_framed (lower : Bool) (body : Bytes) :
    parse lower (marker :: (body ++ [cr, lf])) =
      if body.length % 2 = 1 ∨ body.length < 6 then .error .framing
      else match hexDecode lower body with
        | none => .error .framing
        | some b => splitFields b := by
  obtain ⟨h1, h2⟩ := (framed_shape (marker :: (body ++ [cr, lf]))).2 ⟨body, rfl⟩
  simp only [parse, h1, ne_eq, not_true_eq_false, if_false, body_of_framed]
  refine (if_neg (by simpa using h2)).trans ?_
  rfl

/-- `parse` on any other string (R114). -/
theorem parse_not_framed (lower : Bool) (w : Bytes) (h : ¬ ∃ body, w = marker :: (body ++ [cr, lf])) :
    parse lower w = .error .framing := by
  rw [← framed_shape] at h
  unfold parse
  by_cases hm : w.head? = some marker
  · rw [if_neg (by simpa using hm), if_pos (by by_contra h2; exact h ⟨hm, h2⟩)]
  · rw [if_pos hm]

/-- The split of `address, function, data, checksum` (R117, R118). -/
theorem splitFields_spec (a f c : Byte) (d : Bytes) :
    splitFields (a :: f :: (d ++ [c])) =
      if (byteSum (a :: f :: (d ++ [c]))) % 256 = 0 then .ok ⟨a, f, d⟩ else .error .checksum := by
  have h1 : (a :: f :: (d ++ [c])).dropLast = a :: f :: d := by
    rw [← List.cons_append, ← List.cons_append, List.dropLast_concat]
  have h2 : (a :: f :: (d ++ [c])).getLastD 0 = c := by
    rw [← List.cons_append, ← List.cons_append, List.getLastD_concat]
  have h3 : lrc (a :: f :: d) = c ↔ byteSum (a :: f :: (d ++ [c])) % 256 = 0 := by
    rw [lrc_eq_iff, ← List.cons_append, ← List.cons_append, byteSum_append]; simp [byteSum]
  simp only [splitFields, h1, h2, ne_eq, h3, List.getD_cons_zero, List.getD_cons_succ, List.drop_succ_cons, List.drop_zero,
    List.dropLast_concat, ite_not]

/-- Three bytes or more are an address, a function, data and a checksum. -/
theorem split_three {b : Bytes} (h : 3 ≤ b.length) : ∃ a f d c, b = a :: f :: (d ++ [c]) := by
  match b, h with
  | a :: f :: r, h =>
    have hr : r ≠ [] := by rintro rfl; simp at h
    exact ⟨a, f, r.dropLast, r.getLast hr, by rw [List.dropLast_append_getLast hr]⟩

/-- What `parse` accepts, and with which fields (R114 to R119). -/
theorem parse_ok_iff (lower : Bool) (w : Bytes) (a f : Byte) (d : Bytes) :
    parse lower w = .ok ⟨a, f, d⟩ ↔
      ∃ body c, w = marker :: (body ++ [cr, lf]) ∧ hexDecode lower body = some (a :: f :: (d ++ [c])) ∧
        byteSum (a :: f :: (d ++ [c])) % 256 = 0 := by
  constructor
  · intro h
    by_cases hw : ∃ body, w = marker :: (body ++ [cr, lf])
    · obtain ⟨body, rfl⟩ := hw
      rw [parse_framed] at h
      split at h
      · cases h
      · rename_i hb
        split at h
        · cases h
        · rename_i b hd
          have hlen := hexDecode_length hd
          obtain ⟨a', f', d', c, rfl⟩ := split_three (b := b) (by omega)
          rw [splitFields_spec] at h
          split at h
          · rename_i hs
            cases h
            exact ⟨body, c, rfl, hd, hs⟩
          · cases h
    · rw [parse_not_framed lower w hw] at h; cases h
  · rintro ⟨body, c, rfl, hd, hs⟩
    have hlen := hexDecode_length hd
    simp only [List.length_cons, List.length_append, List.length_nil] at hlen
    rw [parse_framed, if_neg (by omega), hd]
    simp only [splitFields_spec, hs, if_true]

/-- A frame is nine bytes longer than twice its data (R72). -/
theorem parse_length {lower : Bool} {w : Bytes} {fr : Frame} (h : parse lower w = .ok fr) :
    w.length = 2 * fr.data.length + 9 := by
  obtain ⟨a, f, d⟩ := fr
  obtain ⟨body, c, rfl, hd, -⟩ := (parse_ok_iff lower w a f d).1 h
  have hlen := hexDecode_length hd
  simp at hlen ⊢; omega

/-- A frame ends with its terminator (R114). -/
theorem parse_terminated {lower : Bool} {w : Bytes} {fr : Frame} (h : parse lower w = .ok fr) :
    endsWithTerm w = true := by
  obtain ⟨a, f, d⟩ := fr
  obtain ⟨body, c, rfl, -, -⟩ := (parse_ok_iff lower w a f d).1 h
  exact (endsWithTerm_iff _).2 ⟨marker :: body, rfl⟩

@[simp] theorem wireBytes_length (a f : Byte) (d : Bytes) : (wireBytes a f d).length = 2 * d.length + 9 := by
  simp [wireBytes]; omega

end Sys2Proof.Machine
end

