-- ==== Sys2Proof/Laws/State.lean ====
section
/-! SUPPORT. One lemma per field per update of the state, true by definition, so that no proof unfolds a record update. -/

namespace Sys2Proof.Machine

open Sys2Proof


/-! ### `Block.emitTx` -/

@[simp] theorem Block.emitTx_run (b : Block) (w : Bytes) : (b.emitTx w).run = b.run := rfl
@[simp] theorem Block.emitTx_own (b : Block) (w : Bytes) : (b.emitTx w).own = b.own := rfl
@[simp] theorem Block.emitTx_gap (b : Block) (w : Bytes) : (b.emitTx w).gap = b.gap := rfl
@[simp] theorem Block.emitTx_mode (b : Block) (w : Bytes) : (b.emitTx w).mode = b.mode := rfl
@[simp] theorem Block.emitTx_role (b : Block) (w : Bytes) : (b.emitTx w).role = b.role := rfl
@[simp] theorem Block.emitTx_fsm (b : Block) (w : Bytes) : (b.emitTx w).fsm = b.fsm := rfl
@[simp] theorem Block.emitTx_rdyCause (b : Block) (w : Bytes) : (b.emitTx w).rdyCause = b.rdyCause := rfl
@[simp] theorem Block.emitTx_buf (b : Block) (w : Bytes) : (b.emitTx w).buf = b.buf := rfl
@[simp] theorem Block.emitTx_tLast (b : Block) (w : Bytes) : (b.emitTx w).tLast = b.tLast := rfl
@[simp] theorem Block.emitTx_text (b : Block) (w : Bytes) : (b.emitTx w).text = b.text := rfl
@[simp] theorem Block.emitTx_tx (b : Block) (w : Bytes) : (b.emitTx w).tx = b.tx ++ w := rfl
@[simp] theorem Block.emitTx_log (b : Block) (w : Bytes) : (b.emitTx w).log = b.log := rfl

/-! ### `Block.emitLog` -/

@[simp] theorem Block.emitLog_run (b : Block) (g : Tag) : (b.emitLog g).run = b.run := rfl
@[simp] theorem Block.emitLog_own (b : Block) (g : Tag) : (b.emitLog g).own = b.own := rfl
@[simp] theorem Block.emitLog_gap (b : Block) (g : Tag) : (b.emitLog g).gap = b.gap := rfl
@[simp] theorem Block.emitLog_mode (b : Block) (g : Tag) : (b.emitLog g).mode = b.mode := rfl
@[simp] theorem Block.emitLog_role (b : Block) (g : Tag) : (b.emitLog g).role = b.role := rfl
@[simp] theorem Block.emitLog_fsm (b : Block) (g : Tag) : (b.emitLog g).fsm = b.fsm := rfl
@[simp] theorem Block.emitLog_rdyCause (b : Block) (g : Tag) : (b.emitLog g).rdyCause = b.rdyCause := rfl
@[simp] theorem Block.emitLog_buf (b : Block) (g : Tag) : (b.emitLog g).buf = b.buf := rfl
@[simp] theorem Block.emitLog_tLast (b : Block) (g : Tag) : (b.emitLog g).tLast = b.tLast := rfl
@[simp] theorem Block.emitLog_text (b : Block) (g : Tag) : (b.emitLog g).text = b.text := rfl
@[simp] theorem Block.emitLog_tx (b : Block) (g : Tag) : (b.emitLog g).tx = b.tx := rfl
@[simp] theorem Block.emitLog_log (b : Block) (g : Tag) : (b.emitLog g).log = b.log ++ [⟨b.rdyCause, g⟩] := rfl

/-! ### `Block.storeText` -/

@[simp] theorem Block.storeText_run (b : Block) (d : Bytes) : (b.storeText d).run = b.run := rfl
@[simp] theorem Block.storeText_own (b : Block) (d : Bytes) : (b.storeText d).own = b.own := rfl
@[simp] theorem Block.storeText_gap (b : Block) (d : Bytes) : (b.storeText d).gap = b.gap := rfl
@[simp] theorem Block.storeText_mode (b : Block) (d : Bytes) : (b.storeText d).mode = b.mode := rfl
@[simp] theorem Block.storeText_role (b : Block) (d : Bytes) : (b.storeText d).role = b.role := rfl
@[simp] theorem Block.storeText_fsm (b : Block) (d : Bytes) : (b.storeText d).fsm = b.fsm := rfl
@[simp] theorem Block.storeText_rdyCause (b : Block) (d : Bytes) : (b.storeText d).rdyCause = b.rdyCause := rfl
@[simp] theorem Block.storeText_buf (b : Block) (d : Bytes) : (b.storeText d).buf = b.buf := rfl
@[simp] theorem Block.storeText_tLast (b : Block) (d : Bytes) : (b.storeText d).tLast = b.tLast := rfl
@[simp] theorem Block.storeText_text (b : Block) (d : Bytes) : (b.storeText d).text = d := rfl
@[simp] theorem Block.storeText_tx (b : Block) (d : Bytes) : (b.storeText d).tx = b.tx := rfl
@[simp] theorem Block.storeText_log (b : Block) (d : Bytes) : (b.storeText d).log = b.log := rfl

/-! ### `Block.clearBuf` -/

@[simp] theorem Block.clearBuf_run (b : Block) : (b.clearBuf).run = b.run := rfl
@[simp] theorem Block.clearBuf_own (b : Block) : (b.clearBuf).own = b.own := rfl
@[simp] theorem Block.clearBuf_gap (b : Block) : (b.clearBuf).gap = b.gap := rfl
@[simp] theorem Block.clearBuf_mode (b : Block) : (b.clearBuf).mode = b.mode := rfl
@[simp] theorem Block.clearBuf_role (b : Block) : (b.clearBuf).role = b.role := rfl
@[simp] theorem Block.clearBuf_fsm (b : Block) : (b.clearBuf).fsm = .idle := rfl
@[simp] theorem Block.clearBuf_rdyCause (b : Block) : (b.clearBuf).rdyCause = .none := rfl
@[simp] theorem Block.clearBuf_buf (b : Block) : (b.clearBuf).buf = [] := rfl
@[simp] theorem Block.clearBuf_tLast (b : Block) : (b.clearBuf).tLast = b.tLast := rfl
@[simp] theorem Block.clearBuf_text (b : Block) : (b.clearBuf).text = b.text := rfl
@[simp] theorem Block.clearBuf_tx (b : Block) : (b.clearBuf).tx = b.tx := rfl
@[simp] theorem Block.clearBuf_log (b : Block) : (b.clearBuf).log = b.log := rfl

/-! ### `Block.configure` -/

@[simp] theorem Block.configure_run (b : Block) (o : Byte) (g : Nat) (m : Mode) (r : Role) (n : Run) : (b.configure o g m r n).run = n := rfl
@[simp] theorem Block.configure_own (b : Block) (o : Byte) (g : Nat) (m : Mode) (r : Role) (n : Run) : (b.configure o g m r n).own = o := rfl
@[simp] theorem Block.configure_gap (b : Block) (o : Byte) (g : Nat) (m : Mode) (r : Role) (n : Run) : (b.configure o g m r n).gap = g := rfl
@[simp] theorem Block.configure_mode (b : Block) (o : Byte) (g : Nat) (m : Mode) (r : Role) (n : Run) : (b.configure o g m r n).mode = m := rfl
@[simp] theorem Block.configure_role (b : Block) (o : Byte) (g : Nat) (m : Mode) (r : Role) (n : Run) : (b.configure o g m r n).role = r := rfl
@[simp] theorem Block.configure_fsm (b : Block) (o : Byte) (g : Nat) (m : Mode) (r : Role) (n : Run) : (b.configure o g m r n).fsm = .idle := rfl
@[simp] theorem Block.configure_rdyCause (b : Block) (o : Byte) (g : Nat) (m : Mode) (r : Role) (n : Run) : (b.configure o g m r n).rdyCause = .none := rfl
@[simp] theorem Block.configure_buf (b : Block) (o : Byte) (g : Nat) (m : Mode) (r : Role) (n : Run) : (b.configure o g m r n).buf = [] := rfl
@[simp] theorem Block.configure_tLast (b : Block) (o : Byte) (g : Nat) (m : Mode) (r : Role) (n : Run) : (b.configure o g m r n).tLast = 0 := rfl
@[simp] theorem Block.configure_text (b : Block) (o : Byte) (g : Nat) (m : Mode) (r : Role) (n : Run) : (b.configure o g m r n).text = [] := rfl
@[simp] theorem Block.configure_tx (b : Block) (o : Byte) (g : Nat) (m : Mode) (r : Role) (n : Run) : (b.configure o g m r n).tx = b.tx := rfl
@[simp] theorem Block.configure_log (b : Block) (o : Byte) (g : Nat) (m : Mode) (r : Role) (n : Run) : (b.configure o g m r n).log = b.log := rfl

/-! ### `State.withBlk` -/

@[simp] theorem State.withBlk_blk (s : State) (b : Block) : (s.withBlk b).blk = b := rfl
@[simp] theorem State.withBlk_params (s : State) (b : Block) : (s.withBlk b).params = s.params := rfl
@[simp] theorem State.withBlk_port (s : State) (b : Block) : (s.withBlk b).port = s.port := rfl
@[simp] theorem State.withBlk_responses (s : State) (b : Block) : (s.withBlk b).responses = s.responses := rfl
@[simp] theorem State.withBlk_choices (s : State) (b : Block) : (s.withBlk b).choices = s.choices := rfl

/-! ### `State.respond` -/

@[simp] theorem State.respond_blk (s : State) (r : Response) : (s.respond r).blk = s.blk := rfl
@[simp] theorem State.respond_params (s : State) (r : Response) : (s.respond r).params = s.params := rfl
@[simp] theorem State.respond_port (s : State) (r : Response) : (s.respond r).port = s.port := rfl
@[simp] theorem State.respond_responses (s : State) (r : Response) : (s.respond r).responses = s.responses ++ [r] := rfl
@[simp] theorem State.respond_choices (s : State) (r : Response) : (s.respond r).choices = s.choices := rfl

/-! ### `State.hold` -/

@[simp] theorem State.hold_blk (s : State) (i : Instr) : (s.hold i).blk = s.blk := rfl
@[simp] theorem State.hold_params (s : State) (i : Instr) : (s.hold i).params = s.params := rfl
@[simp] theorem State.hold_port (s : State) (i : Instr) : (s.hold i).port = (encodeCommand i).toList ++ s.port := rfl
@[simp] theorem State.hold_responses (s : State) (i : Instr) : (s.hold i).responses = s.responses := rfl
@[simp] theorem State.hold_choices (s : State) (i : Instr) : (s.hold i).choices = s.choices := rfl

end Sys2Proof.Machine
end

