-- ==== Sys2Proof/Laws/Ops.lean ====
section
/-! SUPPORT. One lemma per shared operation that says everything it can do, and from them the inversion of a command,
of a hand-off and of a step, which the proofs cite instead of unfolding the machine. -/

namespace Sys2Proof.Machine

open Sys2Proof

/-! ### Bounds and boundaries -/

theorem within_iff (s : Bytes) (m : Option Nat) : within s m = true ↔ ∀ n, m = some n → s.length ≤ n := by
  cases s with
  | nil => simp [within]
  | cons b s => cases m <;> simp [within]

theorem isFull_iff (p : Params) (n : Nat) : p.isFull n = true ↔ p.bufCapacity = some n := by
  unfold Params.isFull
  cases p.bufCapacity with
  | none => simp
  | some c => simp [eq_comm]

theorem capacity_ge_nine {p : Params} {c : Nat} (h : p.bufCapacity = some c) : 9 ≤ c := by
  unfold Params.bufCapacity at h
  split at h
  · cases h
  · cases h; omega

/-- The boundary a buffer gives: TERM first, then FULL (R141). -/
theorem boundaryOf_cases (p : Params) (nb : Bytes) :
    (boundaryOf p nb = .term ∧ endsWithTerm nb = true) ∨
      (boundaryOf p nb = .full ∧ endsWithTerm nb = false ∧ p.bufCapacity = some nb.length) ∨
      (boundaryOf p nb = .none ∧ endsWithTerm nb = false ∧ p.bufCapacity ≠ some nb.length) := by
  unfold boundaryOf
  cases ht : endsWithTerm nb with
  | true => simp
  | false =>
    cases hf : p.isFull nb.length with
    | true => simpa using (isFull_iff p nb.length).1 hf
    | false =>
      have := (isFull_iff p nb.length).not.1 (by simp [hf])
      simpa using this

/-- What a received byte does (R141). -/
theorem receive_cases (p : Params) (v : Byte) (t : Nat) (b : Block) :
    (endsWithTerm (b.buf ++ [v]) = true ∧
        b.receive p v t = { b with buf := b.buf ++ [v], tLast := t, fsm := .frameReady, rdyCause := .term }) ∨
      (endsWithTerm (b.buf ++ [v]) = false ∧ p.bufCapacity = some (b.buf ++ [v]).length ∧
        b.receive p v t = { b with buf := b.buf ++ [v], tLast := t, fsm := .frameReady, rdyCause := .full }) ∨
      (endsWithTerm (b.buf ++ [v]) = false ∧ p.bufCapacity ≠ some (b.buf ++ [v]).length ∧
        b.receive p v t = { b with buf := b.buf ++ [v], tLast := t, fsm := .accumulating }) := by
  unfold Block.receive
  obtain ⟨h, ht⟩ | ⟨h, ht, hf⟩ | ⟨h, ht, hf⟩ := boundaryOf_cases p (b.buf ++ [v])
  · exact .inl ⟨ht, by simp only [h]⟩
  · exact .inr (.inl ⟨ht, hf, by simp only [h]⟩)
  · exact .inr (.inr ⟨ht, hf, by simp only [h]⟩)

theorem gapOver_iff (now tLast gap : Nat) : gapOver now tLast gap = true ↔ tLast + gap ≤ now ∨ gap = 0 := by
  unfold gapOver elapsed
  split <;> simp <;> omega

theorem ready_iff (b : Block) : b.ready = true ↔ b.run = .run ∧ b.fsm = .frameReady := by
  simp [Block.ready]

theorem dispatching_iff (b : Block) : b.dispatching = true ↔ (b.run = .run ∧ b.fsm = .frameReady) ∧ b.role = .slave := by
  simp [Block.dispatching, ready_iff]

theorem addressLegal_iff (a : Byte) : addressLegal a = true ↔ a.toNat ≤ 247 := by simp [addressLegal]

theorem stationLegal_iff (a : Byte) : stationLegal a = true ↔ 1 ≤ a.toNat ∧ a.toNat ≤ 247 := by simp [stationLegal]

theorem build_ok {a : Byte} (h : a.toNat ≤ 247) (f : Byte) (d : Bytes) : build a f d = .ok (wireBytes a f d) := by
  simp [build, (addressLegal_iff a).2 h]

/-- RESET's check succeeds exactly on a legal configuration (R203, R204). -/
theorem configError_none_iff (own : Byte) (mode : Mode) (role : Role) :
    configError own mode role = none ↔ mode = .ascii ∧ (role = .slave → 1 ≤ own.toNat ∧ own.toNat ≤ 247) := by
  rw [← stationLegal_iff]
  unfold configError
  cases mode <;> cases role <;> cases stationLegal own <;> simp

theorem configError_some {own : Byte} {mode : Mode} {role : Role} {k : Status} (h : configError own mode role = some k) :
    k = .unsupportedMode ∨ k = .invalidAddress := by
  unfold configError at h
  split at h
  · cases h; exact .inl rfl
  · split at h
    · cases h; exact .inr rfl
    · cases h

/-! ### Replies and the hand-off -/

/-- A reply changes `S.tx` only, by nothing or by one wire frame from the own address. -/
theorem reply_cases (b : Block) (f : Byte) (d : Bytes) :
    (b.own.toNat ≤ 247 ∧ b.reply f d = b.emitTx (wireBytes b.own f d)) ∨ (247 < b.own.toNat ∧ b.reply f d = b) := by
  unfold Block.reply build
  by_cases h : b.own.toNat ≤ 247
  · exact .inl ⟨h, by rw [(addressLegal_iff _).2 h]; rfl⟩
  · refine .inr ⟨by omega, ?_⟩
    have : addressLegal b.own = false := by simpa using (addressLegal_iff b.own).not.2 h
    rw [this]; rfl

theorem reply_legal {b : Block} (h : b.own.toNat ≤ 247) (f : Byte) (d : Bytes) :
    b.reply f d = { b with tx := b.tx ++ wireBytes b.own f d } := by
  obtain ⟨-, h'⟩ | ⟨h', -⟩ := reply_cases b f d
  · exact h'
  · omega

/-- What a delivery changes at most: the text by an accepted WriteText, `S.tx` by one reply, the log by one record. -/
inductive Delivered (b : Block) (r : Except ParseError Frame) : Block → Prop where
  | silent (tag : Tag) : Delivered b r { b with log := b.log ++ [⟨b.rdyCause, tag⟩] }
  | replied (f : Byte) (d : Bytes) (tag : Tag) :
      b.role = .slave → (∃ fr, r = .ok fr ∧ fr.address ≠ broadcast) → b.own.toNat ≤ 247 →
      Delivered b r { b with tx := b.tx ++ wireBytes b.own f d, log := b.log ++ [⟨b.rdyCause, tag⟩] }
  | stored (x : Bytes) (tag : Tag) (a : Byte) (d : Bytes) :
      b.role = .slave → r = .ok ⟨a, fnWriteText, d⟩ → a = broadcast ∨ a = b.own →
      (x = [] ∨ a ≠ broadcast ∧ b.own.toNat ≤ 247 ∧ x = wireBytes b.own fnWriteText okPayload) →
      Delivered b r { b with text := d, tx := b.tx ++ x, log := b.log ++ [⟨b.rdyCause, tag⟩] }

theorem deliver_cases (b : Block) (r : Except ParseError Frame) : Delivered b r (b.deliver r) := by
  unfold Block.deliver
  cases hr : b.role with
  | receiver => cases r <;> exact .silent _
  | slave =>
    cases r with
    | error k => exact .silent _
    | ok fr =>
      obtain ⟨a, f, d⟩ := fr
      simp only [Block.dispatch, Block.addressed]
      by_cases ha : a ≠ broadcast ∧ a ≠ b.own
      · rw [if_pos ha]; exact .silent _
      rw [if_neg ha]
      have ha' : a = broadcast ∨ a = b.own := by tauto
      by_cases h1 : f = fnWriteText
      · subst h1
        rw [if_pos rfl]
        simp only [Block.writeText]
        by_cases h0 : a = broadcast
        · have := Delivered.stored (b := b) (r := .ok ⟨a, fnWriteText, d⟩) [] (.acceptedWriteText a) a d hr rfl ha' (.inl rfl)
          simpa [h0, Block.storeText, Block.emitLog] using this
        · rw [if_pos h0]
          obtain ⟨ho, hq⟩ | ⟨-, hq⟩ := reply_cases (b.storeText d) fnWriteText okPayload
          · rw [hq]
            exact .stored _ _ a d hr rfl ha' (.inr ⟨h0, ho, rfl⟩)
          · rw [hq]
            have := Delivered.stored (b := b) (r := .ok ⟨a, fnWriteText, d⟩) [] (.acceptedWriteText a) a d hr rfl ha' (.inl rfl)
            simpa [Block.storeText, Block.emitLog] using this
      · rw [if_neg h1]
        by_cases h2 : f = fnReadText
        · rw [if_pos h2]
          unfold Block.readText
          by_cases h0 : a = broadcast
          · rw [if_pos h0]; exact .silent _
          · rw [if_neg h0]
            obtain ⟨ho, hq⟩ | ⟨-, hq⟩ := reply_cases b fnReadText b.text
            · rw [hq]; exact .replied _ _ _ hr ⟨_, rfl, h0⟩ ho
            · rw [hq]; exact .silent _
        · rw [if_neg h2]
          unfold Block.unsupportedFunc
          by_cases h0 : a = broadcast
          · rw [if_pos h0]; exact .silent _
          · rw [if_neg h0]
            unfold Block.exceptionReply
            obtain ⟨ho, hq⟩ | ⟨-, hq⟩ := reply_cases b (f ||| excBit) excPayload
            · rw [hq]; exact .replied _ _ _ hr ⟨_, rfl, h0⟩ ho
            · rw [hq]; exact .silent _

/-- The hand-off is a delivery of the parsed buffer, cleared (R146, R147). -/
theorem handoff_cases (lower : Bool) (b : Block) :
    ∃ u, Delivered b (parse lower b.buf) u ∧ b.handoff lower = { u with buf := [], fsm := .idle, rdyCause := .none } :=
  ⟨_, deliver_cases b _, rfl⟩

/-- The data of a frame that fits the buffer fits the text (R8, R172). -/
theorem parse_fits {p : Params} {lower : Bool} {w : Bytes} {fr : Frame} (h : parse lower w = .ok fr)
    (hw : ∀ c, p.bufCapacity = some c → w.length ≤ c) : within fr.data p.dataMax = true := by
  rw [within_iff]
  have := parse_length h
  unfold Params.dataMax
  cases hc : p.bufCapacity with
  | none => simp
  | some c => have := hw c hc; simp; omega

/-- The filter lets a frame for this station or for all through (R171). -/
theorem addressed_pass {b : Block} {a : Byte} (h : a = broadcast ∨ a = b.own) (act : Block → Block) :
    b.addressed a act = act b := by
  unfold Block.addressed
  rw [if_neg]
  rintro ⟨h0, h1⟩
  exact h.elim h0 h1

/-- The filter stops any other frame (R171). -/
theorem addressed_stop {b : Block} {a : Byte} (h0 : a ≠ broadcast) (h1 : a ≠ b.own) (act : Block → Block) :
    b.addressed a act = b.emitLog (.ignoredNotAddressed a) := by
  unfold Block.addressed
  rw [if_pos ⟨h0, h1⟩]

/-! ### The acceptance of commands and internal steps -/

theorem acceptCommand_performs {i : Instr} {s : State} {act : State → State} (hw : i.wf s.params = true)
    (hr : s.blk.run = .run) (hf : s.blk.fsm ≠ .frameReady) : acceptCommand i s act = .next (act s) := by
  have : s.blk.ready = false := by simp [Block.ready, hf]
  simp [acceptCommand, hw, this, hr]

theorem acceptCommand_held {i : Instr} {s : State} {act : State → State} (hw : i.wf s.params = true)
    (hr : s.blk.ready = true) : acceptCommand i s act = .next (s.hold i) := by
  simp [acceptCommand, hw, hr]

theorem acceptCommand_halted {i : Instr} {s : State} {act : State → State} {c : Status} (hw : i.wf s.params = true)
    (hr : s.blk.run = .halted c) : acceptCommand i s act = .next (s.respond (.errHalted c)) := by
  have : s.blk.ready = false := by simp [Block.ready, hr]
  simp [acceptCommand, hw, this, hr]

/-- Everything the acceptance of a command can do. -/
theorem acceptCommand_next {i : Instr} {s t : State} {act : State → State} (h : acceptCommand i s act = .next t) :
    (s.blk.ready = true ∧ t = s.hold i) ∨ (∃ c, s.blk.run = .halted c ∧ t = s.respond (.errHalted c)) ∨
      (s.blk.run = .run ∧ s.blk.ready = false ∧ t = act s) := by
  unfold acceptCommand at h
  split at h
  · split at h
    · rename_i hr; cases h; exact .inl ⟨hr, rfl⟩
    · rename_i hr
      split at h
      · rename_i c hc; cases h; exact .inr (.inl ⟨c, hc, rfl⟩)
      · rename_i hc; cases h; exact .inr (.inr ⟨hc, by simpa using hr, rfl⟩)
  · cases h

theorem internalStep_enabled {i : Instr} {en : Bool} {s : State} {act : Block → Block} (hw : i.wf s.params = true)
    (he : en = true) : internalStep i en s act = .next (s.withBlk (act s.blk)) := by
  simp [internalStep, hw, he]

theorem internalStep_next {i : Instr} {en : Bool} {s t : State} {act : Block → Block}
    (h : internalStep i en s act = .next t) : i.wf s.params = true ∧ en = true ∧ t = s.withBlk (act s.blk) := by
  unfold internalStep at h
  split at h
  · rename_i hw
    split at h
    · rename_i he; cases h; exact ⟨hw, he, rfl⟩
    · cases h
  · cases h

/-! ### What each row of the table calls -/

theorem exec_rxb (v : Byte) (t : Nat) (s : State) : exec (.rxb v t) s =
    acceptCommand (.rxb v t) s fun s => (s.withBlk (s.blk.receive s.params v t)).respond .ok := rfl

theorem exec_rxto (t : Nat) (s : State) : exec (.rxto t) s =
    acceptCommand (.rxto t) s fun s => (s.withBlk (s.blk.timeout t)).respond .ok := rfl

theorem exec_flush (s : State) : exec .flush s =
    acceptCommand .flush s fun s => (s.withBlk s.blk.clearBuf).respond .ok := rfl

theorem exec_lrc (p : Bytes) (s : State) : exec (.lrc p) s =
    acceptCommand (.lrc p) s fun s => s.respond (.val (lrc p)) := rfl

theorem exec_build (a f : Byte) (d : Bytes) (s : State) : exec (.build a f d) s =
    acceptCommand (.build a f d) s fun s => s.respond (buildResponse a f d) := rfl

theorem exec_parse (w : Bytes) (s : State) : exec (.parse w) s =
    acceptCommand (.parse w) s fun s => s.respond (parseResponse s.params.lowerHex w) := rfl

theorem exec_reservedCmd7 (s : State) : exec .reservedCmd7 s = acceptReserved .reservedCmd7 s := rfl

theorem exec_reservedCmd8F (low : BitVec 3) (s : State) :
    exec (.reservedCmd8F low) s = acceptReserved (.reservedCmd8F low) s := rfl

theorem exec_handoff (s : State) : exec .handoff s =
    internalStep .handoff s.blk.ready s (Block.handoff s.params.lowerHex) := rfl

theorem exec_writeText (a : Byte) (d : Bytes) (s : State) : exec (.writeText a d) s =
    internalStep (.writeText a d) s.blk.dispatching s fun b => b.addressed a (Block.writeText a d) := rfl

theorem exec_readText (a : Byte) (d : Bytes) (s : State) : exec (.readText a d) s =
    internalStep (.readText a d) s.blk.dispatching s fun b => b.addressed a (Block.readText a) := rfl

theorem exec_unsupportedFunc (a f : Byte) (d : Bytes) (s : State) : exec (.unsupportedFunc a f d) s =
    internalStep (.unsupportedFunc a f d) s.blk.dispatching s fun b => b.addressed a (Block.unsupportedFunc a f) := rfl

theorem exec_exceptionReply (f : Byte) (s : State) : exec (.exceptionReply f) s =
    internalStep (.exceptionReply f) s.blk.dispatching s fun b => b.exceptionReply f := rfl

theorem exec_wireFrame (a f : Byte) (d : Bytes) (s : State) : exec (.wireFrame a f d) s =
    internalStep (.wireFrame a f d) s.blk.ready s fun b => b.deliver (.ok ⟨a, f, d⟩) := rfl

/-- RESET writes its fields and answers, in every state (R202, R208). -/
theorem exec_reset_next (own : Byte) (gap : Nat) (mode : Mode) (role : Role) (s : State) :
    ∃ r a, exec (.reset own gap mode role) s = .next ((s.withBlk (s.blk.configure own gap mode role r)).respond a) := by
  simp only [exec, execReset]
  split <;> exact ⟨_, _, rfl⟩

/-! ### Inversion of a step -/

/-- What performing a command does to the block, and its answer (R209). -/
inductive CommandEffect (p : Params) (b : Block) : Instr → Block → Response → Prop where
  | resetOk (own : Byte) (gap : Nat) (mode : Mode) (role : Role) : configError own mode role = none →
      CommandEffect p b (.reset own gap mode role) (b.configure own gap mode role .run) .ok
  | resetHalts (own : Byte) (gap : Nat) (mode : Mode) (role : Role) (k : Status) : configError own mode role = some k →
      CommandEffect p b (.reset own gap mode role) (b.configure own gap mode role (.halted k)) (.err k)
  | reserved7 : CommandEffect p b .reservedCmd7 b (.err .illegalCommand)
  | reserved8F (low : BitVec 3) : CommandEffect p b (.reservedCmd8F low) b (.err .illegalCommand)
  | refused (i : Instr) (c : Status) : b.run = .halted c →
      (∃ v t, i = .rxb v t) ∨ (∃ t, i = .rxto t) ∨ i = .flush ∨ (∃ x, i = .lrc x) ∨ (∃ a f d, i = .build a f d) ∨
        (∃ w, i = .parse w) →
      CommandEffect p b i b (.errHalted c)
  | rxb (v : Byte) (t : Nat) : b.run = .run → b.fsm ≠ .frameReady → CommandEffect p b (.rxb v t) (b.receive p v t) .ok
  | rxto (t : Nat) : b.run = .run → b.fsm ≠ .frameReady → CommandEffect p b (.rxto t) (b.timeout t) .ok
  | flush : b.run = .run → b.fsm ≠ .frameReady → CommandEffect p b .flush b.clearBuf .ok
  | lrc (x : Bytes) : b.run = .run → CommandEffect p b (.lrc x) b (.val (lrc x))
  | build (a f : Byte) (d : Bytes) : b.run = .run → CommandEffect p b (.build a f d) b (buildResponse a f d)
  | parse (w : Bytes) : b.run = .run → CommandEffect p b (.parse w) b (parseResponse p.lowerHex w)

theorem not_ready_fsm {b : Block} (hr : b.run = .run) (h : b.ready = false) : b.fsm ≠ .frameReady := by
  intro hf; simp [Block.ready, hr, hf] at h

/-- A command taken outside FRAME_READY, or a RESET anywhere, is answered once and has one of the effects above. -/
theorem exec_command {i : Instr} {s t : State} (h : exec i s = .next t) {c : RawCommand}
    (hc : encodeCommand i = some c) (hr : s.blk.ready = false ∨ ∃ own gap mode role, i = .reset own gap mode role) :
    ∃ b r, CommandEffect s.params s.blk i b r ∧ t = (s.withBlk b).respond r := by
  cases i with
  | reset own gap mode role =>
    simp only [exec, execReset] at h
    split at h
    · rename_i k hk; cases h; exact ⟨_, _, .resetHalts _ _ _ _ _ hk, rfl⟩
    · rename_i hk; cases h; exact ⟨_, _, .resetOk _ _ _ _ hk, rfl⟩
  | rxb v n =>
    have hr : s.blk.ready = false := by simpa using hr
    rw [exec_rxb] at h
    obtain ⟨h', -⟩ | ⟨c, h', rfl⟩ | ⟨h', -, rfl⟩ := acceptCommand_next h
    · simp [h'] at hr
    · exact ⟨_, _, .refused _ c h' (by simp), rfl⟩
    · exact ⟨_, _, .rxb _ _ h' (not_ready_fsm h' hr), rfl⟩
  | rxto n =>
    have hr : s.blk.ready = false := by simpa using hr
    rw [exec_rxto] at h
    obtain ⟨h', -⟩ | ⟨c, h', rfl⟩ | ⟨h', -, rfl⟩ := acceptCommand_next h
    · simp [h'] at hr
    · exact ⟨_, _, .refused _ c h' (by simp), rfl⟩
    · exact ⟨_, _, .rxto _ h' (not_ready_fsm h' hr), rfl⟩
  | flush =>
    have hr : s.blk.ready = false := by simpa using hr
    rw [exec_flush] at h
    obtain ⟨h', -⟩ | ⟨c, h', rfl⟩ | ⟨h', -, rfl⟩ := acceptCommand_next h
    · simp [h'] at hr
    · exact ⟨_, _, .refused _ c h' (by simp), rfl⟩
    · exact ⟨_, _, .flush h' (not_ready_fsm h' hr), rfl⟩
  | lrc x =>
    have hr : s.blk.ready = false := by simpa using hr
    rw [exec_lrc] at h
    obtain ⟨h', -⟩ | ⟨c, h', rfl⟩ | ⟨h', -, rfl⟩ := acceptCommand_next h
    · simp [h'] at hr
    · exact ⟨_, _, .refused _ c h' (by simp), rfl⟩
    · exact ⟨_, _, .lrc _ h', rfl⟩
  | build a f d =>
    have hr : s.blk.ready = false := by simpa using hr
    rw [exec_build] at h
    obtain ⟨h', -⟩ | ⟨c, h', rfl⟩ | ⟨h', -, rfl⟩ := acceptCommand_next h
    · simp [h'] at hr
    · exact ⟨_, _, .refused _ c h' (by simp), rfl⟩
    · exact ⟨_, _, .build _ _ _ h', rfl⟩
  | parse w =>
    have hr : s.blk.ready = false := by simpa using hr
    rw [exec_parse] at h
    obtain ⟨h', -⟩ | ⟨c, h', rfl⟩ | ⟨h', -, rfl⟩ := acceptCommand_next h
    · simp [h'] at hr
    · exact ⟨_, _, .refused _ c h' (by simp), rfl⟩
    · exact ⟨_, _, .parse _ h', rfl⟩
  | reservedCmd7 =>
    have hr : s.blk.ready = false := by simpa using hr
    simp only [exec_reservedCmd7, acceptReserved, hr, Bool.false_eq_true, if_false] at h
    cases h
    exact ⟨_, _, .reserved7, rfl⟩
  | reservedCmd8F low =>
    have hr : s.blk.ready = false := by simpa using hr
    simp only [exec_reservedCmd8F, acceptReserved, hr, Bool.false_eq_true, if_false] at h
    cases h
    exact ⟨_, _, .reserved8F low, rfl⟩
  | handoff => cases hc
  | writeText a d => cases hc
  | readText a d => cases hc
  | unsupportedFunc a f d => cases hc
  | exceptionReply f => cases hc
  | wireFrame a f d => cases hc

/-- A record that decodes spells a host command of its own opcode (R82). -/
theorem decodeCommand_ok {p : Params} {c : RawCommand} {i : Instr} (h : decodeCommand p c = .ok i) :
    readCommand c = some i ∧ i.wf p = true := by
  unfold decodeCommand at h
  split at h
  · cases h
  · rename_i j hj
    split at h
    · rename_i hw; cases h; exact ⟨hj, hw⟩
    · cases h

/-- The commands a record can spell, each with its opcode (R82). -/
theorem readCommand_cases {c : RawCommand} {i : Instr} (h : readCommand c = some i) :
    (c.op.toNat = 0 ∧ ∃ own gap mode role, i = .reset own gap mode role) ∨
      (c.op.toNat = 1 ∧ ∃ v t, i = .rxb v t) ∨ (c.op.toNat = 2 ∧ ∃ t, i = .rxto t) ∨ (c.op.toNat = 3 ∧ i = .flush) ∨
      (c.op.toNat = 4 ∧ ∃ x, i = .lrc x) ∨ (c.op.toNat = 5 ∧ ∃ a f d, i = .build a f d) ∨
      (c.op.toNat = 6 ∧ ∃ w, i = .parse w) ∨ (c.op.toNat = 7 ∧ i = .reservedCmd7) ∨
      (8 ≤ c.op.toNat ∧ ∃ low, i = .reservedCmd8F low) := by
  unfold readCommand at h
  split at h <;> first
    | (cases h; simp_all)
    | (split at h <;> cases h; simp_all)

theorem readCommand_encodes {c : RawCommand} {i : Instr} (h : readCommand c = some i) :
    ∃ c', encodeCommand i = some c' := by
  obtain ⟨-, _, _, _, _, rfl⟩ | ⟨-, _, _, rfl⟩ | ⟨-, _, rfl⟩ | ⟨-, rfl⟩ | ⟨-, _, rfl⟩ | ⟨-, _, _, _, rfl⟩ | ⟨-, _, rfl⟩ |
    ⟨-, rfl⟩ | ⟨-, _, rfl⟩ := readCommand_cases h <;> exact ⟨_, rfl⟩

theorem isReset_iff (p : Params) (c : RawCommand) :
    isReset p c = true ↔ ∃ own gap mode role, decodeCommand p c = .ok (.reset own gap mode role) := by
  unfold isReset
  split
  · rename_i o g m r h; simp [h]
  · rename_i h
    simp only [Bool.false_eq_true, false_iff]
    rintro ⟨o, g, m, r, h'⟩
    exact h o g m r h'

/-- Everything a step can do when it answers a next state. -/
inductive StepEffect (s : State) : State → Prop where
  /-- No command waits and no frame: the state is held (R237). -/
  | idle : s.blk.ready = false → s.port = [] → StepEffect s s
  /-- The hand-off (R146). -/
  | handoff (n : Nat) : s.blk.ready = true → StepEffect s { s with blk := s.blk.handoff s.params.lowerHex, choices := n }
  /-- The oldest command, performed and answered (R200, R209). -/
  | command (c : RawCommand) (rest : List RawCommand) (i : Instr) (b : Block) (r : Response) (n : Nat) :
      s.port = c :: rest → decodeCommand s.params c = .ok i → CommandEffect s.params s.blk i b r →
      (s.blk.ready = true → ∃ own gap mode role, i = .reset own gap mode role) →
      StepEffect s { s with blk := b, port := rest, responses := s.responses ++ [r], choices := n }

theorem exec_handoff_ready {s : State} (h : s.blk.ready = true) :
    exec .handoff s = .next (s.withBlk (s.blk.handoff s.params.lowerHex)) := by
  rw [exec_handoff]
  exact internalStep_enabled rfl h

/-- A HANDOFF that answers had a frame waiting (R146). -/
theorem exec_handoff_next {s t : State} (h : exec .handoff s = .next t) :
    s.blk.ready = true ∧ t = s.withBlk (s.blk.handoff s.params.lowerHex) :=
  (internalStep_next ((exec_handoff s).symm.trans h)).2

theorem stepCommand_effect {s t : State} {c : RawCommand} {rest : List RawCommand} {n : Nat} (hp : s.port = c :: rest)
    (hr : s.blk.ready = false ∨ isReset s.params c = true)
    (h : stepCommand c { s with port := rest, choices := n } = .next t) : StepEffect s t := by
  unfold stepCommand at h
  split at h
  · rename_i i hi
    have hi : decodeCommand s.params c = .ok i := hi
    obtain ⟨c', hc'⟩ := readCommand_encodes (decodeCommand_ok hi).1
    have hreset : isReset s.params c = true → ∃ own gap mode role, i = .reset own gap mode role := by
      rw [isReset_iff]
      rintro ⟨o, g, m, r, h'⟩
      rw [hi] at h'
      exact ⟨o, g, m, r, by cases h'; rfl⟩
    obtain ⟨b, r, he, rfl⟩ := exec_command h hc' (hr.imp id hreset)
    exact .command c rest i b r n hp hi he fun hrd => hreset (by simpa [hrd] using hr)
  · cases h

/-- The inversion of a step. -/
theorem step_effect {s t : State} (h : step s = .next t) : StepEffect s t := by
  unfold step State.due at h
  cases hp : s.port with
  | nil =>
    simp only [hp] at h
    cases hr : s.blk.ready with
    | true =>
      simp only [hr, if_true, exec_handoff_ready hr] at h
      cases h
      exact .handoff s.choices hr
    | false =>
      simp only [hr, Bool.false_eq_true, if_false] at h
      cases h
      exact .idle hr hp
  | cons c rest =>
    simp only [hp] at h
    cases hr : s.blk.ready with
    | true =>
      simp only [hr, if_true] at h
      cases hi : isReset s.params c with
      | true =>
        simp only [hi, if_true] at h
        cases hch : Config.resetFirst s.choices with
        | true =>
          simp only [hch, if_true] at h
          exact stepCommand_effect hp (.inr hi) h
        | false =>
          simp only [hch, Bool.false_eq_true, if_false] at h
          rw [← hp, exec_handoff_ready (s := { s with choices := s.choices + 1 }) hr] at h
          cases h
          exact .handoff (s.choices + 1) hr
      | false =>
        simp only [hi, Bool.false_eq_true, if_false, exec_handoff_ready hr] at h
        cases h
        exact .handoff s.choices hr
    | false =>
      simp only [hr, Bool.false_eq_true, if_false] at h
      exact stepCommand_effect hp (.inl hr) h

/-! ### What a command leaves alone -/

/-- A received byte changes only the buffer, its time and the assembler's state (R141). -/
theorem receive_frame (p : Params) (v : Byte) (t : Nat) (b : Block) :
    (b.receive p v t).tx = b.tx ∧ (b.receive p v t).log = b.log ∧ (b.receive p v t).text = b.text ∧
      (b.receive p v t).own = b.own ∧ (b.receive p v t).gap = b.gap ∧ (b.receive p v t).mode = b.mode ∧
      (b.receive p v t).role = b.role ∧ (b.receive p v t).run = b.run := by
  obtain ⟨-, h⟩ | ⟨-, -, h⟩ | ⟨-, -, h⟩ := receive_cases p v t b <;> rw [h] <;>
    exact ⟨rfl, rfl, rfl, rfl, rfl, rfl, rfl, rfl⟩

/-- A read timeout changes only the assembler's state (R142). -/
theorem timeout_frame (t : Nat) (b : Block) :
    (b.timeout t).tx = b.tx ∧ (b.timeout t).log = b.log ∧ (b.timeout t).text = b.text ∧
      (b.timeout t).own = b.own ∧ (b.timeout t).gap = b.gap ∧ (b.timeout t).mode = b.mode ∧
      (b.timeout t).role = b.role ∧ (b.timeout t).run = b.run := by
  unfold Block.timeout
  split <;> exact ⟨rfl, rfl, rfl, rfl, rfl, rfl, rfl, rfl⟩

/-- No command writes a stream (R34, R35). -/
theorem CommandEffect.streams {p : Params} {b b' : Block} {i : Instr} {r : Response} (h : CommandEffect p b i b' r) :
    b'.tx = b.tx ∧ b'.log = b.log := by
  cases h with
  | rxb v t => have := receive_frame p v t b; exact ⟨this.1, this.2.1⟩
  | rxto t => have := timeout_frame t b; exact ⟨this.1, this.2.1⟩
  | _ => exact ⟨rfl, rfl⟩

end Sys2Proof.Machine
end

