-- ==== Sys2Proof/Laws/PerInstr.lean ====
section
/-! SUPPORT. A statement about the syntax of every instruction, one lemma per constructor: the encoded command carries
the OP of its row of spec/opcode_table.json, and a row without a command encoding has none. -/

namespace Sys2Proof.Laws.OpcodeRow

open Sys2Proof

/-- The `match` and `mask` of the CMD rows of spec/opcode_table.json. -/
def row : Instr → Option (BitVec 4 × BitVec 4)
  | .reset _ _ _ _ => some (0x0, 0xF)
  | .rxb _ _ => some (0x1, 0xF)
  | .rxto _ => some (0x2, 0xF)
  | .flush => some (0x3, 0xF)
  | .lrc _ => some (0x4, 0xF)
  | .build _ _ _ => some (0x5, 0xF)
  | .parse _ => some (0x6, 0xF)
  | .reservedCmd7 => some (0x7, 0xF)
  | .reservedCmd8F _ => some (0x8, 0x8)
  | .handoff | .writeText _ _ | .readText _ _ | .unsupportedFunc _ _ _ | .exceptionReply _ | .wireFrame _ _ _ => none

/-- The encoding agrees with the row (R82). -/
def Statement (i : Instr) : Prop :=
  match encodeCommand i, row i with
  | some c, some (value, mask) => c.op &&& mask = value
  | none, none => True
  | _, _ => False

theorem reset (own : Byte) (gap : Nat) (mode : Mode) (role : Role) : Statement (.reset own gap mode role) := by simp [Statement, encodeCommand, row]
theorem rxb (b : Byte) (t : Nat) : Statement (.rxb b t) := by simp [Statement, encodeCommand, row]
theorem rxto (t : Nat) : Statement (.rxto t) := by simp [Statement, encodeCommand, row]
theorem flush : Statement .flush := by simp [Statement, encodeCommand, row]
theorem lrc (p : Bytes) : Statement (.lrc p) := by simp [Statement, encodeCommand, row]
theorem build (a f : Byte) (d : Bytes) : Statement (.build a f d) := by simp [Statement, encodeCommand, row]
theorem parse (w : Bytes) : Statement (.parse w) := by simp [Statement, encodeCommand, row]
theorem reservedCmd7 : Statement .reservedCmd7 := by simp [Statement, encodeCommand, row]
theorem reservedCmd8F (low : BitVec 3) : Statement (.reservedCmd8F low) := by
  show (1#1 ++ low) &&& 0x8#4 = 0x8#4
  revert low; decide
theorem handoff : Statement .handoff := trivial
theorem writeText (a : Byte) (d : Bytes) : Statement (.writeText a d) := trivial
theorem readText (a : Byte) (d : Bytes) : Statement (.readText a d) := trivial
theorem unsupportedFunc (a f : Byte) (d : Bytes) : Statement (.unsupportedFunc a f d) := trivial
theorem exceptionReply (f : Byte) : Statement (.exceptionReply f) := trivial
theorem wireFrame (a f : Byte) (d : Bytes) : Statement (.wireFrame a f d) := trivial

end Sys2Proof.Laws.OpcodeRow
end

