-- ==== Sys2Proof/Tests/Slice0.lean ====
section
/-! SUPPORT. The model's own tests: the checks of WellFormed, words written out from the spec's encodings, one or two
vectors of spec/95_test_vectors.md per instruction, and for every obligation with hypotheses a state and operands that
meet them. -/

namespace Sys2Proof.Tests

open Sys2Proof Sys2Proof.Machine Sys2Proof.Spec

/-! ### States and byte strings of the tests -/

/-- `BUF_CAP = ∞`, `LOWER_HEX = false`, as the vectors assume. -/
def pInf : Params := ⟨.unbounded, false, 1000⟩
/-- `BUF_CAP = 9`. -/
def p9 : Params := ⟨.finite 0, false, 1000⟩

/-- After `RESET own=0x05 gap=10 mode=ASCII role=SLAVE`. -/
def idle : State := ⟨{ Block.powerOn with run := .run, own := 5, gap := 10 }, pInf, [], [], 0⟩
/-- Power-on with the vectors' parameters. -/
def off : State := ⟨Block.powerOn, pInf, [], [], 0⟩
/-- The bytes `w` buffered, the last at time 100. -/
def acc (w : Bytes) : State := { idle with blk := { idle.blk with fsm := .accumulating, buf := w, tLast := 100 } }
/-- A complete frame `w` waits. -/
def ready (w : Bytes) : State :=
  { idle with blk := { idle.blk with fsm := .frameReady, rdyCause := .term, buf := w, tLast := 100 } }
/-- The same in role RECEIVER. -/
def readyRx (w : Bytes) : State := { ready w with blk := { (ready w).blk with role := .receiver } }

/-- `":0501484969\r\n"`. -/
def wWrite : Bytes := [0x3A, 0x30, 0x35, 0x30, 0x31, 0x34, 0x38, 0x34, 0x39, 0x36, 0x39, 0x0D, 0x0A]
/-- `":0501FA\r\n"`. -/
def wMin : Bytes := [0x3A, 0x30, 0x35, 0x30, 0x31, 0x46, 0x41, 0x0D, 0x0A]
/-- `":0501fa\r\n"`. -/
def wLow : Bytes := [0x3A, 0x30, 0x35, 0x30, 0x31, 0x66, 0x61, 0x0D, 0x0A]
/-- `":0501FB\r\n"`. -/
def wBad : Bytes := [0x3A, 0x30, 0x35, 0x30, 0x31, 0x46, 0x42, 0x0D, 0x0A]
/-- `":0002FE\r\n"`. -/
def wCast : Bytes := [0x3A, 0x30, 0x30, 0x30, 0x32, 0x46, 0x45, 0x0D, 0x0A]
/-- `":05014F4B60\r\n"`. -/
def wAck : Bytes := [0x3A, 0x30, 0x35, 0x30, 0x31, 0x34, 0x46, 0x34, 0x42, 0x36, 0x30, 0x0D, 0x0A]
/-- `":0502484968\r\n"`. -/
def wText : Bytes := [0x3A, 0x30, 0x35, 0x30, 0x32, 0x34, 0x38, 0x34, 0x39, 0x36, 0x38, 0x0D, 0x0A]
/-- `":0583303117\r\n"`. -/
def wExc : Bytes := [0x3A, 0x30, 0x35, 0x38, 0x33, 0x33, 0x30, 0x33, 0x31, 0x31, 0x37, 0x0D, 0x0A]
/-- `RESET own=0x05 gap=10 mode=ASCII role=SLAVE`, written out (R82, R83). -/
def cReset : RawCommand := ⟨0x0, [.byte 5, .nat 10, .bit 0, .bit 0]⟩

/-- The next state, if there is one. -/
def got (o : Host.Outcome State Fault Refusal) : Option State :=
  match o with
  | .next s => some s
  | _ => none

theorem next_of_got {o : Host.Outcome State Fault Refusal} (h : (got o).isSome = true) : ∃ t, o = .next t := by
  cases o with
  | next t => exact ⟨t, rfl⟩
  | fault r => cases h
  | refused r => cases h

/-! ### WellFormed: one ill-formed term for each check -/

theorem test_wf_lrc : (Instr.lrc [1, 2, 3, 4]).wf p9 = false ∧ (Instr.lrc [1, 2, 3]).wf p9 = true := by decide
theorem test_wf_build : (Instr.build 5 1 [0x48]).wf p9 = false ∧ (Instr.build 5 1 []).wf p9 = true := by decide
theorem test_wf_parse : (Instr.parse wWrite).wf p9 = false ∧ (Instr.parse wMin).wf p9 = true := by decide
theorem test_wf_write : (Instr.writeText 5 [0x48]).wf p9 = false := by decide
theorem test_wf_read : (Instr.readText 5 [0x48]).wf p9 = false := by decide
theorem test_wf_unsupported_data : (Instr.unsupportedFunc 5 3 [0x48]).wf p9 = false := by decide
theorem test_wf_unsupported_one : (Instr.unsupportedFunc 5 1 []).wf p9 = false := by decide
theorem test_wf_unsupported_two : (Instr.unsupportedFunc 5 2 []).wf p9 = false := by decide
theorem test_wf_exception : (Instr.exceptionReply 0x03).wf p9 = false := by decide
theorem test_wf_wire : (Instr.wireFrame 5 1 [0x48]).wf p9 = false := by decide

/-! ### Decoding: a word of each constructor, written out from R71, R78, R82, R83 -/

theorem test_decode_reset : decode pInf (.command ⟨0b0000#4, [.byte 0xF8, .nat 7, .bit 1, .bit 0]⟩) =
    .ok (.reset 0xF8 7 .rtu .slave) := by decide
theorem test_decode_rxb : decode pInf (.command ⟨0b0001#4, [.byte 0x3A, .nat 100]⟩) = .ok (.rxb 0x3A 100) := by decide
theorem test_decode_rxto : decode pInf (.command ⟨0b0010#4, [.nat 110]⟩) = .ok (.rxto 110) := by decide
theorem test_decode_flush : decode pInf (.command ⟨0b0011#4, []⟩) = .ok .flush := by decide
theorem test_decode_lrc : decode pInf (.command ⟨0b0100#4, [.bytes [5, 1]]⟩) = .ok (.lrc [5, 1]) := by decide
theorem test_decode_build : decode pInf (.command ⟨0b0101#4, [.byte 5, .byte 1, .bytes [0x48]]⟩) =
    .ok (.build 5 1 [0x48]) := by decide
theorem test_decode_parse : decode pInf (.command ⟨0b0110#4, [.bytes wMin]⟩) = .ok (.parse wMin) := by decide
theorem test_decode_reserved7 : decode pInf (.command ⟨0b0111#4, []⟩) = .ok .reservedCmd7 := by decide
theorem test_decode_reserved8 : decode pInf (.command ⟨0b1000#4, []⟩) = .ok (.reservedCmd8F 0) := by decide
theorem test_decode_reservedF : decode pInf (.command ⟨0b1111#4, []⟩) = .ok (.reservedCmd8F 7) := by decide
theorem test_decode_handoff : decode pInf .internal = .ok .handoff := by decide
theorem test_decode_write : decode pInf (.received ⟨5, 0x01, [0x48]⟩) = .ok (.writeText 5 [0x48]) := by decide
theorem test_decode_read : decode pInf (.received ⟨5, 0x02, []⟩) = .ok (.readText 5 []) := by decide
theorem test_decode_unsupported_0 : decode pInf (.received ⟨5, 0x00, []⟩) = .ok (.unsupportedFunc 5 0x00 []) := by decide
theorem test_decode_unsupported_80 : decode pInf (.received ⟨5, 0x80, []⟩) = .ok (.unsupportedFunc 5 0x80 []) := by decide
theorem test_decode_exception : decode pInf (.reply 0x83) = .ok (.exceptionReply 0x83) := by decide
theorem test_decode_no_exception : decode pInf (.reply 0x03) = .error .notAnExceptionReply := by decide
theorem test_decode_wire : decode pInf (.wire wWrite) = .ok (.wireFrame 5 1 [0x48, 0x49]) := by decide
theorem test_decode_bad_shape : decode pInf (.command ⟨0x1, [.nat 3]⟩) = .error (.operandShape 0x1) := by decide
/-- V-BLD-17. -/
theorem test_decode_too_long : decode p9 (.command ⟨0x5, [.byte 5, .byte 1, .bytes [0x48, 0x49]]⟩) = .error .tooLong := by
  decide
theorem test_table_word_rxb : decodeTableWord 8 0x01 = some (.rxb 0 0) := by decide
theorem test_table_word_80 : decodeTableWord 8 0x80 = some (.unsupportedFunc 0 0x80 []) := by decide
theorem test_fetch_word_runs : ∃ t, step (State.reset.withFetchWord 8 0x05) = .next t := next_of_got (by decide)
/-- R92. -/
theorem test_rxs : rxs [0x3A, 0x30] 100 1 = [⟨0x1, [.byte 0x3A, .nat 100]⟩, ⟨0x1, [.byte 0x30, .nat 101]⟩] := by decide

/-! ### The codes (R86, R87) and the families (R181) -/

theorem test_codes : Status.notConfigured.code = 0x8 ∧ Status.halted.code = 0x7 ∧ Cause.full.code = 3 := by decide
theorem test_kind : (Tag.rejectedIllegalFunction 3).kind = some .illegalFunction ∧
    (Tag.ignoredBroadcastRead).family = some .ignored := by decide

/-! ### The pure functions and commands -/

/-- V-LRC-6, V-LRC-9. -/
theorem test_lrc : lrc [0xFF, 0xFF] = 0x02 ∧ lrc [0x05, 0x01, 0x48, 0x49] = 0x69 := by decide
/-- V-LRC-13. -/
theorem test_lrc_halted : (got (exec (.lrc []) off)).map (·.responses) = some [.errHalted .notConfigured] := by decide
/-- V-BLD-1, V-BLD-15. -/
theorem test_build : (got (exec (.build 5 1 [0x48, 0x49]) idle)).map (·.responses) = some [.wire wWrite] ∧
    (got (exec (.build 0xF8 1 []) idle)).map (·.responses) = some [.err .invalidAddress] := by decide
/-- V-BLD-11: `":F7FFFFFF0C\r\n"`. -/
theorem test_build_top : wireBytes 0xF7 0xFF [0xFF, 0xFF] =
    [0x3A, 0x46, 0x37, 0x46, 0x46, 0x46, 0x46, 0x46, 0x46, 0x30, 0x43, 0x0D, 0x0A] := by decide
/-- V-PRS-6, V-PRS-7, V-PRS-8. -/
theorem test_parse : parse false wMin = .ok ⟨5, 1, []⟩ ∧ parse false wBad = .error .checksum ∧
    parse false wLow = .error .framing ∧ parse true wLow = .ok ⟨5, 1, []⟩ := by decide
/-- V-PRS-2, V-PRS-12, V-PRS-14 (the framing check comes before the checksum). -/
theorem test_parse_framing : parse false [0x3A] = .error .framing ∧
    parse false [0x3A, 0x30, 0x35, 0x30, 0x31, 0x46, 0x41, 0x0A, 0x0D] = .error .framing ∧
    parse false [0x3A, 0x30, 0x35, 0x30, 0x31, 0x20, 0x46, 0x41, 0x0D, 0x0A] = .error .framing := by decide
/-- V-PRS-18, V-PRS-17 as the command. -/
theorem test_parse_command : (got (exec (.parse wWrite) idle)).map (·.responses) = some [.fields 5 1 [0x48, 0x49]] := by
  decide

/-! ### The assembler -/

/-- V-ASM-1. -/
theorem test_rxb_first : (got (exec (.rxb 0x3A 100) idle)).map (·.blk) =
    some { idle.blk with buf := [0x3A], tLast := 100, fsm := .accumulating } := by decide
/-- V-ASM-8: TERM wins over FULL. -/
theorem test_rxb_term_and_full : (got (exec (.rxb 0x0A 8) { acc (wMin.take 8) with params := p9 })).map
    (fun s => (s.blk.fsm, s.blk.rdyCause)) = some (.frameReady, .term) := by decide
/-- V-ASM-3, V-ASM-4. -/
theorem test_rxto_edge : (got (exec (.rxto 109) (acc [0x3A]))).map (·.blk.fsm) = some .accumulating ∧
    (got (exec (.rxto 110) (acc [0x3A]))).map (fun s => (s.blk.fsm, s.blk.rdyCause)) = some (.frameReady, .gap) := by decide
/-- V-ASM-2: elapsed time saturates. -/
theorem test_rxto_back : (got (exec (.rxto 50) (acc [0x3A]))).map (·.blk.fsm) = some .accumulating := by decide
/-- V-ASM-14: FLUSH keeps the time. -/
theorem test_flush : (got (exec .flush (acc [0x3A, 0x30]))).map (fun s => (s.blk.buf, s.blk.fsm, s.blk.tLast, s.blk.log)) =
    some ([], .idle, 100, []) := by decide
/-- V-DSP-1. -/
theorem test_handoff_write : (got (exec .handoff (ready wWrite))).map
    (fun s => (s.blk.text, s.blk.tx, s.blk.log, s.blk.buf)) =
      some ([0x48, 0x49], wAck, [⟨.term, .acceptedWriteText 5⟩], []) := by decide
/-- V-RCV-3. -/
theorem test_handoff_receiver : (got (exec .handoff (readyRx wText))).map (fun s => (s.blk.tx, s.blk.log)) =
    some ([], [⟨.term, .frame 5 2 [0x48, 0x49]⟩]) := by decide

/-! ### The dispatcher -/

/-- V-DSP-2: a broadcast is stored and not acknowledged. -/
theorem test_write_broadcast : (got (exec (.writeText 0 [0x48]) (ready []))).map (fun s => (s.blk.text, s.blk.tx)) =
    some ([0x48], []) := by decide
/-- V-DSP-9. -/
theorem test_write_other : (got (exec (.writeText 9 [0x48]) (ready []))).map (fun s => (s.blk.text, s.blk.log)) =
    some ([], [⟨.term, .ignoredNotAddressed 9⟩]) := by decide
/-- V-DSP-3. -/
theorem test_read : (got (exec (.readText 5 [])
    { ready [] with blk := { (ready []).blk with text := [0x48, 0x49] } })).map (·.blk.tx) = some wText := by decide
/-- V-DSP-6. -/
theorem test_read_broadcast : (got (exec (.readText 0 []) (ready []))).map (fun s => (s.blk.tx, s.blk.log)) =
    some ([], [⟨.term, .ignoredBroadcastRead⟩]) := by decide
/-- V-DSP-7. -/
theorem test_unsupported : (got (exec (.unsupportedFunc 5 3 []) (ready []))).map (fun s => (s.blk.tx, s.blk.log)) =
    some (wExc, [⟨.term, .rejectedIllegalFunction 3⟩]) := by decide
/-- V-DSP-8. -/
theorem test_unsupported_broadcast : (got (exec (.unsupportedFunc 0 3 []) (ready []))).map (fun s => (s.blk.tx, s.blk.log)) =
    some ([], [⟨.term, .ignoredBroadcastUnsupported 3⟩]) := by decide
/-- R176, worked example: the reply's function byte is 0x83. -/
theorem test_exception : (got (exec (.exceptionReply 0x83) (ready []))).map (·.blk.tx) = some wExc := by decide
/-- V-RCV-3 at the frame level. -/
theorem test_wire_frame : (got (exec (.wireFrame 5 2 []) (readyRx []))).map (·.blk.log) =
    some [⟨.term, .frame 5 2 []⟩] := by decide

/-! ### Control -/

/-- V-RST-7. -/
theorem test_reset : (got (exec (.reset 6 20 .ascii .slave)
    { acc [0x3A] with blk := { (acc [0x3A]).blk with text := [0x48], tx := wAck } })).map (·.blk) =
      some { idle.blk with own := 6, gap := 20, tx := wAck } := by decide
/-- V-RST-3, V-RST-4d. -/
theorem test_reset_checks :
    (got (exec (.reset 0 10 .rtu .slave) off)).map (·.blk.run) = some (.halted .unsupportedMode) ∧
      (got (exec (.reset 0xFF 10 .ascii .receiver) off)).map (·.blk.run) = some .run := by decide
/-- V-RST-2. -/
theorem test_reserved : (got (exec .reservedCmd7 off)).map (·.responses) = some [.err .illegalCommand] ∧
    (got (exec (.reservedCmd8F 7) off)).map (·.responses) = some [.err .illegalCommand] := by decide
/-- V-ASM-16: FLUSH waits while a frame does. -/
theorem test_held : (got (exec .flush (ready wMin))).map (fun s => (s.port, s.blk.fsm)) =
    some ([⟨0x3, []⟩], .frameReady) := by decide
/-- V-ASM-16: the hand-off comes first, and the command stays queued. -/
theorem test_step_handoff_first : (got (step { ready wMin with port := [⟨0x3, []⟩] })).map
    (fun s => (s.port, s.blk.fsm, s.blk.log)) = some ([⟨0x3, []⟩], .idle, [⟨.term, .acceptedWriteText 5⟩]) := by decide
/-- V-RST-1: from power-on a queued FLUSH is answered Halted. -/
theorem test_step_halted : (got (step { off with port := [⟨0x3, []⟩] })).map (·.responses) =
    some [.errHalted .notConfigured] := by decide

/-! ### Host duties -/

theorem test_monotonic : Safety.monotonicTimes (rxs [1, 2, 3] 5 1) = true ∧
    Safety.monotonicTimes [⟨0x1, [.byte 1, .nat 5]⟩, ⟨0x2, [.nat 4]⟩] = false := by decide
theorem test_gap_recommended : Safety.gapRecommended idle = true ∧ Safety.booted idle = true ∧ Safety.booted off = false := by
  decide

/-! ### Witnesses: the hypotheses of the obligations can be met -/

theorem inv_idle : idle.Inv := by constructor <;> simp [idle, pInf, Block.powerOn, Params.textCap, Params.dataMax, Params.bufCapacity]
theorem inv_acc : (acc [0x3A]).Inv := by
  constructor <;> first
    | (simp [acc, idle, pInf, Block.powerOn, Params.textCap, Params.dataMax, Params.bufCapacity]; done)
    | decide
theorem inv_ready : (ready wMin).Inv := by
  constructor <;> first
    | (simp [ready, idle, pInf, Block.powerOn, Params.textCap, Params.dataMax, Params.bufCapacity, wMin]; done)
    | decide
/-- A frame ended by silence. -/
def silent : State := { acc [0x3A] with blk := { (acc [0x3A]).blk with fsm := .frameReady, rdyCause := .gap } }
theorem inv_silent : silent.Inv := by
  constructor <;> first
    | (simp [silent, acc, idle, pInf, Block.powerOn, Params.textCap, Params.dataMax, Params.bufCapacity]; done)
    | decide
/-- A buffer of nine bytes without a terminator, full. -/
def full : State := { acc (List.replicate 9 0x30) with
  params := p9
  blk := { (acc (List.replicate 9 0x30)).blk with fsm := .frameReady, rdyCause := .full } }
theorem inv_full : full.Inv := by
  constructor <;> first
    | (simp [full, acc, idle, p9, Block.powerOn, Params.textCap, Params.dataMax, Params.bufCapacity]; done)
    | decide

theorem waits_ready (w : Bytes) : FrameWaits (ready w) := ⟨rfl, rfl⟩
theorem slave_ready (w : Bytes) : SlaveHandoff (ready w) := 
  ⟨waits_ready w, rfl, (by decide : 1 ≤ (5 : Byte).toNat), (by decide : (5 : Byte).toNat ≤ 247)⟩
theorem not_waits_idle (w : List RawCommand) : ¬ FrameWaits { idle with port := w } := by rintro ⟨-, h⟩; cases h
theorem performs_idle : Performs idle := ⟨rfl, by decide⟩
theorem performs_acc (w : Bytes) : Performs (acc w) := ⟨rfl, by simp [acc]⟩

theorem witness_BuildChecksTheAddress : (0xF7 : Byte).toNat ≤ 247 ∧ 247 < (0xF8 : Byte).toNat := by decide
theorem witness_BuildLaysOutTheWireFrame : build 5 1 [0x48, 0x49] = .ok wWrite := by decide
theorem witness_ParseDecidedByChecksum_ok : Spells false [0x30, 0x35, 0x30, 0x31, 0x46, 0x41] ([5, 1] ++ [] ++ [0xFA]) ∧
    total ([5, 1] ++ [] ++ [0xFA]) % 256 = 0 := by
  refine ⟨⟨rfl, fun i x h => ?_⟩, by decide⟩
  match i, h with
  | 0, h => cases h; exact ⟨0x30, 0x35, rfl, rfl, .inl rfl, .inl rfl⟩
  | 1, h => cases h; exact ⟨0x30, 0x31, rfl, rfl, .inl rfl, .inl rfl⟩
  | 2, h => cases h; exact ⟨0x46, 0x41, rfl, rfl, .inl rfl, .inl rfl⟩
theorem witness_ParseDecidedByChecksum_bad : Spells true [0x30, 0x35, 0x30, 0x31, 0x66, 0x62] ([5, 1] ++ [] ++ [0xFB]) ∧
    total ([5, 1] ++ [] ++ [0xFB]) % 256 ≠ 0 := by
  refine ⟨⟨rfl, fun i x h => ?_⟩, by decide⟩
  match i, h with
  | 0, h => cases h; exact ⟨0x30, 0x35, rfl, rfl, .inl rfl, .inl rfl⟩
  | 1, h => cases h; exact ⟨0x30, 0x31, rfl, rfl, .inl rfl, .inl rfl⟩
  | 2, h => cases h; exact ⟨0x66, 0x62, rfl, rfl, .inr (by decide), .inr (by decide)⟩
theorem witness_ParseOfBuildRoundTrip : (0xF7 : Byte).toNat ≤ 247 := by decide
theorem witness_UpperCaseFrameIsCanonical : parse false wWrite = .ok ⟨5, 1, [0x48, 0x49]⟩ ∧ (5 : Byte).toNat ≤ 247 := by decide
theorem witness_LowerHexOnlyAddsFrames : parse false wMin = .ok ⟨5, 1, []⟩ := by decide
theorem witness_DecodeOfEncodeEveryInstruction : (Instr.parse wMin).wf p9 = true := by decide
theorem witness_DecodedInstructionsAreWellFormed : decode p9 (.wire wMin) = .ok (.wireFrame 5 1 []) := by decide
theorem witness_OverlongOperandsSpellNoCommand : (Instr.lrc [1, 2, 3, 4]).wf { idle with params := p9 }.params = false := by decide
theorem witness_FunctionByteSelectsOperation : within [] p9.dataMax = true ∧ (0x00 : Byte) ≠ 0x01 ∧ (0x00 : Byte) ≠ 0x02 := by
  decide
theorem witness_StepRunsTheDecodedCommand : ¬ FrameWaits { idle with port := [cReset] } ∧
    decodeCommand idle.params cReset = .ok (.reset 5 10 .ascii .slave) := ⟨not_waits_idle _, by decide⟩
theorem witness_StepWithoutACommandToRun : ¬ FrameWaits { idle with port := [⟨0x1, []⟩] } ∧
    decodeCommand idle.params ⟨0x1, []⟩ = .error (.operandShape 0x1) ∧ ¬ FrameWaits { idle with port := [] } :=
  ⟨not_waits_idle _, by decide, not_waits_idle _⟩
theorem witness_StepHandsOffAWaitingFrame : FrameWaits { ready wMin with port := [⟨0x3, []⟩] } ∧
    ∀ own gap mode role rest, ¬ HeadIsReset { ready wMin with port := [⟨0x3, []⟩] } own gap mode role rest := by
  refine ⟨waits_ready _, ?_⟩
  rintro own gap mode role rest ⟨c, hp, hd⟩
  cases hp
  have : decodeCommand pInf ⟨0x3, []⟩ = .ok .flush := by decide
  cases this.symm.trans hd
theorem witness_ResetRacesHandoff : FrameWaits { ready wMin with port := [cReset] } ∧
    HeadIsReset { ready wMin with port := [cReset] } 5 10 .ascii .slave [] :=
  ⟨waits_ready _, cReset, rfl, by decide⟩
theorem witness_CommandsAreHeldWhileAFrameWaits : FrameWaits (ready wMin) ∧ IsRunCommand (.lrc [1]) ∧ IsReserved (.reservedCmd8F 7) ∧
    (Instr.lrc [1]).wf (ready wMin).params = true :=
  ⟨waits_ready _, .inr (.inr (.inr (.inl ⟨_, rfl⟩))), .inr ⟨7, rfl⟩, by decide⟩
theorem witness_WaitingFrameIsGoneAfterOneStep : FrameWaits (ready wMin) := waits_ready _
theorem witness_EveryStepAnswersANextState : ∀ c rest, { idle with port := [cReset] }.port = c :: rest →
    ∃ i, decodeCommand idle.params c = .ok i := by
  intro c rest h
  cases h
  exact ⟨.reset 5 10 .ascii .slave, by decide⟩
theorem witness_RxbAppendsAndDetectsBoundary_term : Performs (acc [0x0D]) ∧ Terminated ((acc [0x0D]).blk.buf ++ [0x0A]) :=
  ⟨performs_acc _, [], rfl⟩
theorem witness_RxbAppendsAndDetectsBoundary_full :
    Performs { acc (List.replicate 8 0x30) with params := p9 } ∧ ¬ Terminated (List.replicate 8 (0x30 : Byte) ++ [0x0D]) ∧
      p9.bufCapacity = some (List.replicate 8 (0x30 : Byte) ++ [0x0D]).length := by
  refine ⟨performs_acc _, ?_, by decide⟩
  intro h
  have := (endsWithTerm_iff _).2 h
  revert this; decide
theorem witness_RxbAppendsAndDetectsBoundary_more :
    Performs { acc (List.replicate 7 0x30) with params := p9 } ∧ ¬ Terminated (List.replicate 7 (0x30 : Byte) ++ [0x0D]) ∧
      p9.bufCapacity ≠ some (List.replicate 7 (0x30 : Byte) ++ [0x0D]).length := by
  refine ⟨performs_acc _, ?_, by decide⟩
  intro h
  have := (endsWithTerm_iff _).2 h
  revert this; decide
theorem witness_RxtoEndsFrameExactlyAtGap : Performs (acc [0x3A]) ∧
    ((acc [0x3A]).blk.fsm = .accumulating ∧ ((acc [0x3A]).blk.tLast + (acc [0x3A]).blk.gap ≤ 110 ∨ (acc [0x3A]).blk.gap = 0)) ∧
    ¬ ((acc [0x3A]).blk.fsm = .accumulating ∧
      ((acc [0x3A]).blk.tLast + (acc [0x3A]).blk.gap ≤ 109 ∨ (acc [0x3A]).blk.gap = 0)) :=
  ⟨performs_acc _, by decide, by decide⟩
/-- The halted clauses of the statements about RXB, RXTO, FLUSH, LRC, BUILD and PARSE. -/
theorem witness_halted_commands : off.blk.run = .halted .notConfigured ∧ within [1] off.params.lrcMax = true ∧
    within [1] off.params.dataMax = true ∧ within wMin off.params.bufCapacity = true := by decide
theorem witness_FlushDiscardsTheBuffer : Performs (acc [0x3A]) := performs_acc _
theorem witness_HandoffClearsAndLogsOnce : FrameWaits (ready wBad) := waits_ready _
theorem witness_HandoffRejectsWhatDoesNotParse : FrameWaits (ready wBad) ∧
    parse (ready wBad).params.lowerHex (ready wBad).blk.buf = .error .checksum := ⟨waits_ready _, by decide⟩
theorem witness_HandoffRunsTheReceivedFrame : (ready wMin).Inv ∧ FrameWaits (ready wMin) ∧
    parse (ready wMin).params.lowerHex (ready wMin).blk.buf = .ok ⟨5, 1, []⟩ := ⟨inv_ready, waits_ready _, by decide⟩
theorem witness_UnterminatedFramesAreFramingErrors_gap : silent.Inv ∧ FrameWaits silent ∧ silent.blk.rdyCause = .gap :=
  ⟨inv_silent, ⟨rfl, rfl⟩, rfl⟩
theorem witness_UnterminatedFramesAreFramingErrors_full : full.Inv ∧ FrameWaits full ∧ full.blk.rdyCause = .full :=
  ⟨inv_full, ⟨rfl, rfl⟩, rfl⟩
theorem witness_SilenceRecoversFromGarbage : { acc [0x3A] with port := [⟨0x2, [.nat 110]⟩] }.Inv ∧ (acc [0x3A]).blk.run = .run ∧
    (acc [0x3A]).blk.fsm = .accumulating ∧ (acc [0x3A]).blk.tLast + (acc [0x3A]).blk.gap ≤ 110 :=
  ⟨inv_acc, rfl, rfl, by decide⟩
theorem witness_WireFrameDispatchesOrReports : FrameWaits (ready []) ∧ within [0x48] (ready []).params.dataMax = true ∧
    (ready []).blk.role = .slave ∧ FrameWaits (readyRx []) ∧ within [0x48] (readyRx []).params.dataMax = true ∧
    (readyRx []).blk.role = .receiver := ⟨waits_ready _, by decide, rfl, ⟨rfl, rfl⟩, by decide, rfl⟩
theorem witness_OtherStationsFramesAreIgnored : SlaveHandoff (ready []) ∧ (0xF8 : Byte) ≠ 0 ∧ (0xF8 : Byte) ≠ (ready []).blk.own ∧
    (Instr.unsupportedFunc 0xF8 0x03 []).wf (ready []).params = true := ⟨slave_ready _, by decide, by decide, by decide⟩
theorem witness_WriteTextStoresAndAcknowledges : SlaveHandoff (ready []) ∧ within [0x48] (ready []).params.dataMax = true :=
  ⟨slave_ready _, by decide⟩
theorem witness_ReadTextAnswersUnicastOnly : SlaveHandoff (ready []) ∧ within [] (ready []).params.dataMax = true :=
  ⟨slave_ready _, by decide⟩
theorem witness_UnsupportedFunctionGetsException : SlaveHandoff (ready []) ∧ within [] (ready []).params.dataMax = true ∧
    (0x00 : Byte) ≠ 0x01 ∧ (0x00 : Byte) ≠ 0x02 := ⟨slave_ready _, by decide, by decide, by decide⟩
theorem witness_ExceptionReplyIsAppendedWhole : SlaveHandoff (ready []) ∧ (0x80 : Byte).msb = true := ⟨slave_ready _, by decide⟩
theorem witness_BroadcastsAreNeverAnswered : parse (ready wCast).params.lowerHex (ready wCast).blk.buf = .ok ⟨0, 2, []⟩ ∧
    ∃ t, exec .handoff (ready wCast) = .next t := ⟨by decide, next_of_got (by decide)⟩
theorem witness_RepliesCarryTheOwnAddress : (ready wMin).Inv ∧ ∃ t, exec .handoff (ready wMin) = .next t :=
  ⟨inv_ready, next_of_got (by decide)⟩
theorem witness_RepeatedWriteTextIsIdempotent : SlaveHandoff (ready []) ∧ ∃ t u,
    exec (.writeText (ready []).blk.own [0x48]) (ready []) = .next t ∧ exec (.writeText (ready []).blk.own [0x48]) t = .next u := by
  refine ⟨slave_ready _, ?_⟩
  have h : ((got (exec (.writeText 5 [0x48]) (ready []))).bind fun t => got (exec (.writeText 5 [0x48]) t)).isSome = true := by decide
  obtain ⟨t, ht⟩ := next_of_got (o := exec (.writeText 5 [0x48]) (ready [])) (by decide)
  rw [ht] at h
  obtain ⟨u, hu⟩ := next_of_got (o := exec (.writeText 5 [0x48]) t) h
  exact ⟨t, u, ht, hu⟩
theorem witness_ReceiverReportsEveryFrame : FrameWaits (readyRx wBad) ∧ (readyRx wBad).blk.role = .receiver ∧
    parse false (readyRx wBad).blk.buf = .error .checksum ∧ FrameWaits (readyRx wWrite) ∧
    (readyRx wWrite).blk.role = .receiver ∧ parse false (readyRx wWrite).blk.buf = .ok ⟨5, 1, [0x48, 0x49]⟩ :=
  ⟨⟨rfl, rfl⟩, rfl, by decide, ⟨rfl, rfl⟩, rfl, by decide⟩
/-- One buffer for each line of the dispatch, the frames of V-DSP-2, V-DSP-6 to V-DSP-9 and R171 to R177 among them. -/
theorem witness_SlaveHandoffActsOnEachFrame :
    (∀ w, SlaveHandoff (ready w)) ∧ parse false wBad = .error .checksum ∧
      parse false (wireBytes 0xF8 1 []) = .ok ⟨0xF8, 1, []⟩ ∧ parse false (wireBytes 0 1 [0x48]) = .ok ⟨0, 1, [0x48]⟩ ∧
      parse false wWrite = .ok ⟨5, 1, [0x48, 0x49]⟩ ∧ parse false wCast = .ok ⟨0, 2, []⟩ ∧
      parse false (wireBytes 5 2 []) = .ok ⟨5, 2, []⟩ ∧ parse false (wireBytes 0 0 []) = .ok ⟨0, 0, []⟩ ∧
      parse false (wireBytes 5 0xFF []) = .ok ⟨5, 0xFF, []⟩ :=
  ⟨slave_ready, by decide, by decide, by decide, by decide, by decide, by decide, by decide, by decide⟩
theorem witness_InternalRowsNeedAWaitingFrame : Instr.handoff.wf idle.params = true ∧ ¬ FrameWaits idle ∧
    (Instr.exceptionReply 0x83).wf (readyRx []).params = true ∧
    ¬ (FrameWaits (readyRx []) ∧ (readyRx []).blk.role = .slave) := by
  refine ⟨by decide, not_waits_idle [], by decide, ?_⟩
  rintro ⟨-, h⟩; cases h
theorem witness_ResetConfiguresOrHalts : (Role.slave = .slave → 1 ≤ (0xF7 : Byte).toNat ∧ (0xF7 : Byte).toNat ≤ 247) ∧
    (Role.receiver = .slave → 1 ≤ (0xFF : Byte).toNat ∧ (0xFF : Byte).toNat ≤ 247) ∧
    ((0 : Byte) = 0 ∨ 248 ≤ (0 : Byte).toNat) ∧ 248 ≤ (0xF8 : Byte).toNat := by decide
theorem witness_HaltedBlockRefusesCommands : off.blk.run = .halted .notConfigured ∧ IsRunCommand .flush ∧
    Instr.flush.wf off.params = true ∧ ∃ t, step { off with port := [⟨0x3, []⟩] } = .next t :=
  ⟨rfl, .inr (.inr (.inl rfl)), rfl, next_of_got (by decide)⟩
theorem witness_ReservedOpcodesAnswerIllegalCommand : 7 ≤ (0x7 : BitVec 4).toNat ∧ ¬ FrameWaits idle ∧
    IsReserved .reservedCmd7 := ⟨by decide, not_waits_idle [], .inl rfl⟩
theorem witness_OnlyALegalResetLeavesHalted : off.blk.run = .halted .notConfigured ∧
    (got (step { off with port := [cReset] })).map (·.blk.run) = some .run := ⟨rfl, by decide⟩
theorem witness_LrcCommandAnswersChecksum : Performs { idle with params := p9 } ∧ within [1, 2, 3] p9.lrcMax = true :=
  ⟨performs_idle, by decide⟩
theorem witness_BuildCommandAnswersWireFrame : Performs { idle with params := p9 } ∧ within [] p9.dataMax = true ∧
    (0xF7 : Byte).toNat ≤ 247 ∧ 247 < (0xF8 : Byte).toNat := ⟨performs_idle, by decide, by decide, by decide⟩
theorem witness_ParseCommandAnswersFieldsOrKind : Performs idle ∧ within wMin idle.params.bufCapacity = true ∧
    parse idle.params.lowerHex wMin = .ok ⟨5, 1, []⟩ ∧ parse idle.params.lowerHex wLow = .error .framing ∧
    parse idle.params.lowerHex wBad = .error .checksum := ⟨performs_idle, by decide, by decide, by decide, by decide⟩
theorem witness_PureCommandsLeaveTheBlockAlone : ∃ t, exec (.parse wBad) idle = .next t := next_of_got (by decide)
theorem witness_EveryStepKeepsTheInvariant : (ready wMin).Inv ∧ ∃ t, step (ready wMin) = .next t :=
  ⟨inv_ready, next_of_got (by decide)⟩
/-- The steps of StreamsOnlyGrow, LogGrowsOnlyAtHandoff, OnlyResetChangesConfiguration, OnlyWriteTextOrResetChangesText,
EveryAcceptedCommandIsAnsweredOnce and ParametersAreFixed: a hand-off, a command, and an idle step. -/
theorem witness_step_answers : (∃ t, step (ready wWrite) = .next t) ∧ (∃ t, step { idle with port := [cReset] } = .next t) ∧
    ∃ t, step idle = .next t := ⟨next_of_got (by decide), next_of_got (by decide), next_of_got (by decide)⟩

end Sys2Proof.Tests
end

section
/-! PROOFS. The block at power-on and its two append-only streams (10_state.md R34, R35, R38, R53). -/

namespace Sys2Proof.Machine

open Sys2Proof

/-- Settles O50: `State.reset` carries the table of R38 as its block. -/
theorem powerOnValues : Obligations.PowerOnValues := by
  unfold Obligations.PowerOnValues State.reset
  rfl

/-! ### What a hand-off appends -/

/-- A delivery records its outcome once, with the cause of the hand-off (R35). -/
theorem Delivered.log {b u : Block} {r : Except ParseError Frame} (h : Delivered b r u) :
    ∃ tag, u.log = b.log ++ [⟨b.rdyCause, tag⟩] := by
  cases h with
  | silent tag => exact ⟨tag, rfl⟩
  | replied _ _ tag => exact ⟨tag, rfl⟩
  | stored _ tag => exact ⟨tag, rfl⟩

/-- A delivery sends nothing, or one whole frame from the own address (R53, R179). -/
theorem Delivered.tx {b u : Block} {r : Except ParseError Frame} (h : Delivered b r u) :
    u.tx = b.tx ∨ ∃ f d w, build b.own f d = .ok w ∧ u.tx = b.tx ++ w := by
  cases h with
  | silent => exact .inl rfl
  | replied f d _ _ _ hown => exact .inr ⟨f, d, _, build_ok hown f d, rfl⟩
  | stored _ _ _ _ _ _ _ hx =>
    obtain rfl | ⟨-, hown, rfl⟩ := hx
    · exact .inl (List.append_nil b.tx)
    · exact .inr ⟨fnWriteText, okPayload, _, build_ok hown _ _, rfl⟩

theorem handoff_log (lower : Bool) (b : Block) : ∃ tag, (b.handoff lower).log = b.log ++ [⟨b.rdyCause, tag⟩] := by
  obtain ⟨u, hu, he⟩ := handoff_cases lower b
  rw [he]
  exact hu.log

theorem handoff_tx (lower : Bool) (b : Block) :
    (b.handoff lower).tx = b.tx ∨ ∃ f d w, build b.own f d = .ok w ∧ (b.handoff lower).tx = b.tx ++ w := by
  obtain ⟨u, hu, he⟩ := handoff_cases lower b
  rw [he]
  exact hu.tx

/-! ### Who appends -/

/-- A step leaves both streams alone, or it is a HANDOFF (R34, R35). The counter of log entry 4 may have advanced before
the HANDOFF. -/
theorem step_streams {s t : State} (h : step s = .next t) :
    (t.blk.tx = s.blk.tx ∧ t.blk.log = s.blk.log) ∨
      (∃ n, exec .handoff { s with choices := n } = .next t) ∧ t.blk = s.blk.handoff s.params.lowerHex := by
  cases step_effect h with
  | idle => exact .inl ⟨rfl, rfl⟩
  | handoff n hready => exact .inr ⟨⟨n, exec_handoff_ready (s := { s with choices := n }) hready⟩, rfl⟩
  | command _ _ _ _ _ _ _ _ heffect => exact .inl heffect.streams

/-- Settles O53: only a HANDOFF touches a stream, and its delivery sends at most one built frame. -/
theorem streamsOnlyGrow : Obligations.StreamsOnlyGrow := by
  intro s t h
  obtain ⟨htx, hlog⟩ | ⟨hexec, hblk⟩ := step_streams h
  · exact ⟨.inl htx, [], by rw [hlog, List.append_nil]⟩
  · obtain ⟨tag, hlog⟩ := handoff_log s.params.lowerHex s.blk
    rw [hblk]
    exact ⟨(handoff_tx _ _).imp_right fun hsent => ⟨hexec, hsent⟩, _, hlog⟩

/-- Settles O54: a HANDOFF is one delivery, which records once, and no other step touches the log. -/
theorem logGrowsOnlyAtHandoff : Obligations.LogGrowsOnlyAtHandoff := by
  refine ⟨fun s t h => ?_, fun s t h => ?_⟩
  · obtain ⟨-, rfl⟩ := exec_handoff_next h
    exact handoff_log s.params.lowerHex s.blk
  · obtain ⟨-, hlog⟩ | ⟨hexec, hblk⟩ := step_streams h
    · exact .inl hlog
    · rw [hblk]
      exact .inr ⟨hexec, handoff_log _ _⟩

end Sys2Proof.Machine
end

section
/-! PROOFS. The encodings (30_encoding.md): the wire frame of R71, the reserved opcodes of R85 and the response forms of
R88. -/

namespace Sys2Proof.Machine

open Sys2Proof Sys2Proof.Spec

/-! ### The wire frame, character by character -/

/-- `digitU` is the table of upper-case digits in the order of their values (R73, R76). -/
theorem upperDigits_getElem? (k : BitVec 4) : upperDigits[k.toNat]? = some (digitU k) := by
  revert k; decide

theorem highNibble_toNat (v : Byte) : (v.extractLsb' 4 4).toNat = v.toNat / 16 := by
  have := v.isLt
  rw [BitVec.extractLsb'_toNat, Nat.shiftRight_eq_div_pow]
  omega

theorem lowNibble_toNat (v : Byte) : (v.extractLsb' 0 4).toNat = v.toNat % 16 := by
  rw [BitVec.extractLsb'_toNat, Nat.shiftRight_zero]

/-- Byte `i` of a string is spelt at `2i` and `2i+1` of its hex form, most significant nibble first (R73). -/
theorem hexU_getElem? : ∀ {s : Bytes} {i : Nat} {v : Byte}, s[i]? = some v →
    (hexU s)[2 * i]? = upperDigits[v.toNat / 16]? ∧ (hexU s)[2 * i + 1]? = upperDigits[v.toNat % 16]?
  | u :: s, 0, v, h => by
    obtain rfl : u = v := by simpa using h
    rw [← highNibble_toNat, ← lowNibble_toNat, upperDigits_getElem?, upperDigits_getElem?]
    exact ⟨rfl, rfl⟩
  | u :: s, i + 1, v, h => hexU_getElem? (s := s) (i := i) h

theorem wireBytes_eq_cons (a f : Byte) (d : Bytes) :
    wireBytes a f d = marker :: (hexU ([a, f] ++ d ++ [lrc ([a, f] ++ d)]) ++ [cr, lf]) := rfl

/-- After the marker stands the hex body (R71). -/
theorem wireBytes_getElem?_body {a f : Byte} {d : Bytes} {j : Nat} (h : j < 2 * d.length + 6) :
    (wireBytes a f d)[j + 1]? = (hexU ([a, f] ++ d ++ [lrc ([a, f] ++ d)]))[j]? := by
  rw [wireBytes_eq_cons, List.getElem?_cons_succ, List.getElem?_append_left (by simp; omega)]

/-- After the hex body stands the terminator (R71). -/
theorem wireBytes_getElem?_term (a f : Byte) (d : Bytes) (j : Nat) :
    (wireBytes a f d)[2 * d.length + 6 + j + 1]? = [cr, lf][j]? := by
  have hbody : (hexU ([a, f] ++ d ++ [lrc ([a, f] ++ d)])).length = 2 * d.length + 6 := by simp; omega
  rw [wireBytes_eq_cons, List.getElem?_cons_succ, ← hbody, List.getElem?_append_right (by omega), Nat.add_sub_cancel_left]

/-- `build` answers the wire frame, and only to a legal address (R110, R111). -/
theorem build_ok_iff (a f : Byte) (d w : Bytes) : build a f d = .ok w ↔ a.toNat ≤ 247 ∧ w = wireBytes a f d := by
  unfold build
  rw [← addressLegal_iff]
  cases addressLegal a <;> simp [eq_comm]

/-- Settles O4: the output is `wireBytes`, whose body spells each byte in two digits. -/
theorem buildLaysOutTheWireFrame : Obligations.BuildLaysOutTheWireFrame := by
  intro a f d w h
  obtain ⟨-, rfl⟩ := (build_ok_iff a f d w).1 h
  refine ⟨wireBytes_length a f d, rfl, fun i x hx => ?_, ?_, ?_⟩
  · have hi : i < d.length + 3 := by
      obtain ⟨hlt, -⟩ := List.getElem?_eq_some_iff.1 hx
      simp only [List.length_append, List.length_cons, List.length_nil] at hlt
      omega
    obtain ⟨hhigh, hlow⟩ := hexU_getElem? hx
    rw [Nat.add_comm 1, Nat.add_comm 2, wireBytes_getElem?_body (by omega), wireBytes_getElem?_body (by omega)]
    exact ⟨hhigh, hlow⟩
  · rw [show 7 + 2 * d.length = 2 * d.length + 6 + 0 + 1 by omega]
    exact wireBytes_getElem?_term a f d 0
  · rw [show 8 + 2 * d.length = 2 * d.length + 6 + 1 + 1 by omega]
    exact wireBytes_getElem?_term a f d 1

/-! ### The forms of a response -/

theorem buildResponse_form (a f : Byte) (d : Bytes) :
    (∃ w, buildResponse a f d = .wire w) ∨ buildResponse a f d = .err .invalidAddress := by
  unfold buildResponse build
  cases addressLegal a
  · exact .inr rfl
  · exact .inl ⟨_, rfl⟩

theorem parseResponse_form (lower : Bool) (w : Bytes) :
    (∃ a f d, parseResponse lower w = .fields a f d) ∨ parseResponse lower w = .err .framingError ∨
      parseResponse lower w = .err .checksumError := by
  unfold parseResponse
  cases parse lower w with
  | ok fr => exact .inl ⟨_, _, _, rfl⟩
  | error k =>
    cases k
    · exact .inr (.inl rfl)
    · exact .inr (.inr rfl)

/-- The six commands a halted block refuses have the opcodes 0x1 to 0x6 (R82, R206). -/
theorem readCommand_isRunCommand {c : RawCommand} {i : Instr} (hc : readCommand c = some i) (hi : IsRunCommand i) :
    1 ≤ c.op.toNat ∧ c.op.toNat ≤ 6 := by
  obtain ⟨_, _, rfl⟩ | ⟨_, rfl⟩ | rfl | ⟨_, rfl⟩ | ⟨_, _, _, rfl⟩ | ⟨_, rfl⟩ := hi <;>
  · have hop := readCommand_cases hc
    simp only [reduceCtorEq, exists_false, and_false, false_or, or_false] at hop
    omega

/-- A performed command is answered in a form the table gives its opcode in that run state (R88). -/
theorem CommandEffect.responseForm {p : Params} {b b' : Block} {i : Instr} {r : Response} {c : RawCommand}
    (h : CommandEffect p b i b' r) (hc : readCommand c = some i) : ResponseForm b.run c.op.toNat r := by
  have hop := readCommand_cases hc
  cases h with
  | resetOk => exact .inl ⟨by simpa using hop, .inl rfl⟩
  | resetHalts own gap mode role k hk =>
    obtain rfl | rfl := configError_some hk
    · exact .inl ⟨by simpa using hop, .inr (.inl rfl)⟩
    · exact .inl ⟨by simpa using hop, .inr (.inr rfl)⟩
  | reserved7 =>
    have hop : c.op.toNat = 7 := by simpa using hop
    exact .inr (.inr (.inr ⟨hop.ge, rfl⟩))
  | reserved8F low =>
    have hop : 8 ≤ c.op.toNat := by simpa using hop
    exact .inr (.inr (.inr ⟨by omega, rfl⟩))
  | refused _ st hrun hi =>
    obtain ⟨h1, h6⟩ := readCommand_isRunCommand hc hi
    exact .inr (.inr (.inl ⟨h1, h6, st, hrun, rfl⟩))
  | rxb _ _ hrun => exact .inr (.inl ⟨hrun, .inl ⟨.inl (by simpa using hop), rfl⟩⟩)
  | rxto _ hrun => exact .inr (.inl ⟨hrun, .inl ⟨.inr (.inl (by simpa using hop)), rfl⟩⟩)
  | flush hrun => exact .inr (.inl ⟨hrun, .inl ⟨.inr (.inr (by simpa using hop)), rfl⟩⟩)
  | lrc x hrun => exact .inr (.inl ⟨hrun, .inr (.inl ⟨by simpa using hop, _, rfl⟩)⟩)
  | build a f d hrun => exact .inr (.inl ⟨hrun, .inr (.inr (.inl ⟨by simpa using hop, buildResponse_form a f d⟩))⟩)
  | parse w hrun => exact .inr (.inl ⟨hrun, .inr (.inr (.inr ⟨by simpa using hop, parseResponse_form _ w⟩))⟩)

/-- Settles O57: only a step that performs the oldest command answers, and it answers by that command's effect. -/
theorem everyAcceptedCommandIsAnsweredOnce : Obligations.EveryAcceptedCommandIsAnsweredOnce := by
  intro s t h
  cases step_effect h with
  | idle => exact .inl ⟨rfl, rfl⟩
  | handoff => exact .inl ⟨rfl, rfl⟩
  | command c _ _ _ r _ hport hdec heffect =>
    exact .inr ⟨c, r, hport, rfl, heffect.responseForm (decodeCommand_ok hdec).1⟩

/-! ### The reserved opcodes -/

/-- A record with an opcode from 0x7 spells a reserved command, whatever its operands (R85, R209; log entry 5). -/
theorem readCommand_reserved {c : RawCommand} (h : 7 ≤ c.op.toNat) : ∃ i, IsReserved i ∧ readCommand c = some i := by
  obtain h7 | h8 : c.op.toNat = 7 ∨ 8 ≤ c.op.toNat := by omega
  · exact ⟨.reservedCmd7, .inl rfl, by simp [readCommand, h7]⟩
  · refine ⟨.reservedCmd8F (c.op.setWidth 3), .inr ⟨_, rfl⟩, ?_⟩
    unfold readCommand
    split
    case h_9 => exact if_pos h8
    all_goals omega

theorem isReserved_wf {i : Instr} (h : IsReserved i) (p : Params) : i.wf p = true := by
  obtain rfl | ⟨_, rfl⟩ := h <;> rfl

theorem exec_of_isReserved {i : Instr} (h : IsReserved i) (s : State) : exec i s = acceptReserved i s := by
  obtain rfl | ⟨_, rfl⟩ := h <;> rfl

/-- Where no frame waits, a reserved command is only answered (R207). -/
theorem acceptReserved_answers {s : State} (h : s.blk.ready = false) (i : Instr) :
    acceptReserved i s = .next (s.respond (.err .illegalCommand)) := by
  simp [acceptReserved, h]

/-- Settles O44: a reserved opcode decodes without regard to operands, and both reserved rows share one acceptance. -/
theorem reservedOpcodesAnswerIllegalCommand : Obligations.ReservedOpcodesAnswerIllegalCommand := by
  refine ⟨fun p op hop => ?_, fun s i hwaits hi => ?_⟩
  · obtain ⟨i, hi, hread⟩ := readCommand_reserved (c := ⟨op, []⟩) hop
    exact ⟨i, hi, by simp [decode, decodeCommand, hread, isReserved_wf hi p]⟩
  · have hready : s.blk.ready = false := by simpa using (ready_iff s.blk).not.2 hwaits
    rw [exec_of_isReserved hi]
    exact acceptReserved_answers hready i

end Sys2Proof.Machine
end

section
/-! PROOFS. The checksum and its command (40_checksum.md R100, R101). -/

namespace Sys2Proof.Machine

open Sys2Proof Sys2Proof.Spec

/-- The sum the statements write anew is the sum the model computes (R11). -/
theorem total_eq_byteSum (p : Bytes) : total p = byteSum p := rfl

/-- The checksum completes the byte sum to a multiple of 256 (R100). -/
theorem lrc_add_total_mod (p : Bytes) : ((lrc p).toNat + total p) % 256 = 0 := by
  rw [total_eq_byteSum, Nat.add_comm]
  exact (lrc_eq_iff p _).1 rfl

/-- Settles O1: the checksum is the one byte that completes the sum, and so is its negation modulo 256. -/
theorem lrcIsNegatedByteSum : Obligations.LrcIsNegatedByteSum := by
  intro p
  have hlt : (lrc p).toNat < 256 := (lrc p).isLt
  have hsum := lrc_add_total_mod p
  omega

/-- Settles O46: LRC is accepted as every host command is, and its action is to answer alone. -/
theorem lrcCommandAnswersChecksum : Obligations.LrcCommandAnswersChecksum := by
  intro s p hfits
  have hwf : (Instr.lrc p).wf s.params = true := hfits
  rw [exec_lrc]
  exact ⟨fun ⟨hrun, hfsm⟩ => ⟨acceptCommand_performs hwf hrun hfsm, lrc_add_total_mod p⟩,
    fun _ hhalted => acceptCommand_halted hwf hhalted⟩

end Sys2Proof.Machine
end

section
/-! PROOFS. The codec (41_codec.md): which strings `parse` refuses and how it decides the others (R114 to R118), the
address check of `build` (R110), and the commands BUILD and PARSE (R113, R121). -/

namespace Sys2Proof.Machine

open Sys2Proof Sys2Proof.Spec

/-! ### Hex characters and hex bodies -/

/-- The model's `nib` reads exactly the two digit tables of R74. -/
theorem nib_eq_some_iff (lower : Bool) (c : Byte) (n : Nat) : nib lower c = some n ↔ IsDigit lower c n := by
  constructor
  · have hread : ∀ (lower : Bool) (c : Byte), ∀ n ∈ nib lower c,
        upperDigits[n]? = some c ∨ (lower = true ∧ (c, n) ∈ lowerDigits) := by decide
    exact hread lower c n
  · rintro (hupper | ⟨rfl, hlower⟩)
    · obtain ⟨hn, -⟩ := List.getElem?_eq_some_iff.1 hupper
      have hk : (BitVec.ofNat 4 n).toNat = n := Nat.mod_eq_of_lt hn
      rw [← hk, upperDigits_getElem?, Option.some.injEq] at hupper
      rw [← hupper, nib_digitU, hk]
    · have hread : ∀ q ∈ lowerDigits, nib true q.1 = some q.2 := by decide
      exact hread _ hlower

/-- A body of even length decodes exactly when it holds hex characters only (R116). -/
theorem hexDecode_eq_some_iff_digits {lower : Bool} {body : Bytes} (heven : body.length % 2 = 0) :
    (∃ b, hexDecode lower body = some b) ↔ ∀ c ∈ body, ∃ n, IsDigit lower c n := by
  simp only [← nib_eq_some_iff]
  exact ⟨fun ⟨_, hb⟩ => digits_of_hexDecode hb, hexDecode_of_digits heven⟩

/-- The first two characters of a spelling are the digits of the first byte; the others spell the rest. -/
theorem spells_cons {lower : Bool} {h l x : Byte} {body bytes : Bytes} (hs : Spells lower (h :: l :: body) (x :: bytes)) :
    IsDigit lower h (x.toNat / 16) ∧ IsDigit lower l (x.toNat % 16) ∧ Spells lower body bytes := by
  obtain ⟨hlen, hdigits⟩ := hs
  obtain ⟨h', l', hh, hl, hhigh, hlow⟩ := hdigits 0 x rfl
  obtain rfl : h = h' := by simpa using hh
  obtain rfl : l = l' := by simpa using hl
  refine ⟨hhigh, hlow, ?_, fun i y hy => hdigits (i + 1) y hy⟩
  simp only [List.length_cons] at hlen
  omega

/-- A byte is read back from its two hex digits (R74). -/
theorem ofNat_hexDigits (x : Byte) : BitVec.ofNat 8 (x.toNat / 16 * 16 + x.toNat % 16) = x := by
  rw [Nat.div_add_mod', BitVec.ofNat_toNat, BitVec.setWidth_eq]

/-- What a body spells is what it decodes to (R117). -/
theorem hexDecode_of_spells {lower : Bool} :
    ∀ {body bytes : Bytes}, Spells lower body bytes → hexDecode lower body = some bytes
  | [], [], _ => rfl
  | [], _ :: _, hs | [_], _, hs | _ :: _ :: _, [], hs => by
    have hlen := hs.1
    simp only [List.length_cons, List.length_nil] at hlen
    omega
  | h :: l :: body, x :: bytes, hs => by
    obtain ⟨hhigh, hlow, hrest⟩ := spells_cons hs
    rw [← nib_eq_some_iff] at hhigh hlow
    simp only [hexDecode, hhigh, hlow, hexDecode_of_spells hrest, ofNat_hexDigits]

/-! ### What `parse` answers -/

theorem framed_eq_cons (body : Bytes) : framed body = marker :: (body ++ [cr, lf]) := rfl

theorem framed_injective : Function.Injective framed := by
  intro x y h
  simpa [framed_eq_cons] using h

/-- The split's only error is the checksum (R118). -/
theorem splitFields_ne_framing (b : Bytes) : splitFields b ≠ .error .framing := by
  unfold splitFields
  split <;> nofun

/-- Between marker and terminator, `FramingError` is about the body's length and its characters (R115, R116). -/
theorem parse_framed_eq_framing_iff (lower : Bool) (body : Bytes) :
    parse lower (framed body) = .error .framing ↔
      ¬ (body.length % 2 = 0 ∧ 6 ≤ body.length ∧ ∀ c ∈ body, ∃ n, IsDigit lower c n) := by
  rw [framed_eq_cons, parse_framed]
  by_cases hlen : body.length % 2 = 1 ∨ body.length < 6
  · rw [if_pos hlen]
    exact iff_of_true rfl fun ⟨heven, hsix, _⟩ => by omega
  · have heven : body.length % 2 = 0 := by omega
    have hsix : 6 ≤ body.length := by omega
    rw [if_neg hlen, ← hexDecode_eq_some_iff_digits heven]
    cases hexDecode lower body with
    | none => simp
    | some b => simp [heven, hsix, splitFields_ne_framing]

/-- Settles O5: a string without marker and terminator is refused, and any other has one body, which decides. -/
theorem parseFramingErrorExactly : Obligations.ParseFramingErrorExactly := by
  intro lower w
  by_cases hw : ∃ body, w = framed body
  · obtain ⟨body, rfl⟩ := hw
    rw [parse_framed_eq_framing_iff, not_iff_not]
    constructor
    · exact fun hbody => ⟨body, rfl, hbody⟩
    · rintro ⟨body', heq, hbody⟩
      rwa [framed_injective heq]
  · exact iff_of_true (parse_not_framed lower w hw) fun ⟨body, heq, _⟩ => hw ⟨body, heq⟩

/-- A spelt frame is decided by its byte sum (R117, R118). -/
theorem parse_framed_of_spells {lower : Bool} {body : Bytes} {a f c : Byte} {d : Bytes}
    (hs : Spells lower body ([a, f] ++ d ++ [c])) :
    parse lower (framed body) =
      if total ([a, f] ++ d ++ [c]) % 256 = 0 then .ok ⟨a, f, d⟩ else .error .checksum := by
  have hlen : body.length = 2 * d.length + 6 := by
    have := hs.1
    simp only [List.length_append, List.length_cons, List.length_nil] at this
    omega
  rw [framed_eq_cons, parse_framed, if_neg (by omega), hexDecode_of_spells hs]
  exact splitFields_spec a f c d

/-- Settles O6: the body decodes to the bytes it spells, and the split tests their sum. -/
theorem parseDecidedByChecksum : Obligations.ParseDecidedByChecksum := by
  intro lower body a f c d hs
  rw [parse_framed_of_spells hs]
  exact ⟨fun hsum => if_pos hsum, fun hsum => if_neg hsum⟩

/-! ### What `build` answers -/

theorem build_illegal {a : Byte} (h : 247 < a.toNat) (f : Byte) (d : Bytes) :
    build a f d = .error .invalidAddress := by
  have hillegal : ¬ addressLegal a = true := (addressLegal_iff a).not.2 (by omega)
  exact if_neg hillegal

/-- Settles O3: the address check is the only one `build` makes. -/
theorem buildChecksTheAddress : Obligations.BuildChecksTheAddress := by
  intro a f d
  exact ⟨fun hlegal => ⟨_, build_ok hlegal f d⟩, fun hillegal => build_illegal hillegal f d⟩

/-- A frame whose data fits DATA_MAX fits the buffer (R8, R113). -/
theorem wireBytes_fits {p : Params} {d : Bytes} (hd : within d p.dataMax = true) (a f : Byte) {c : Nat}
    (hc : p.bufCapacity = some c) : (wireBytes a f d).length ≤ c := by
  have hmax : p.dataMax = some ((c - 9) / 2) := by rw [Params.dataMax, hc, Option.map_some]
  have hlen := (within_iff d p.dataMax).1 hd _ hmax
  have hnine := capacity_ge_nine hc
  rw [wireBytes_length]
  omega

/-! ### The commands BUILD and PARSE -/

theorem buildResponse_of_ok {a f : Byte} {d w : Bytes} (h : build a f d = .ok w) :
    buildResponse a f d = .wire w := by
  simp only [buildResponse, h]

theorem buildResponse_of_error {a f : Byte} {d : Bytes} {k : Status} (h : build a f d = .error k) :
    buildResponse a f d = .err k := by
  simp only [buildResponse, h]

theorem parseResponse_of_ok {lower : Bool} {w : Bytes} {fr : Frame} (h : parse lower w = .ok fr) :
    parseResponse lower w = .fields fr.address fr.function fr.data := by
  simp only [parseResponse, h]

theorem parseResponse_of_error {lower : Bool} {w : Bytes} {k : ParseError} (h : parse lower w = .error k) :
    parseResponse lower w = .err (ParseError.status k) := by
  simp only [parseResponse, h]

/-- Settles O47: BUILD is accepted as every host command is, and its action is to answer with what `build` gives. -/
theorem buildCommandAnswersWireFrame : Obligations.BuildCommandAnswersWireFrame := by
  intro s a f d hd
  have hwf : (Instr.build a f d).wf s.params = true := hd
  rw [exec_build]
  refine ⟨fun ⟨hrun, hfsm⟩ => ?_, fun c hhalted => acceptCommand_halted hwf hhalted⟩
  rw [acceptCommand_performs hwf hrun hfsm]
  constructor
  · intro hlegal
    have hbuild := build_ok hlegal f d
    rw [buildResponse_of_ok hbuild]
    exact ⟨_, hbuild, fun c hc => wireBytes_fits hd a f hc, rfl⟩
  · intro hillegal
    rw [buildResponse_of_error (build_illegal hillegal f d)]
    rfl

/-- Settles O48: PARSE is accepted as every host command is, and its action is to answer with what `parse` gives. -/
theorem parseCommandAnswersFieldsOrKind : Obligations.ParseCommandAnswersFieldsOrKind := by
  intro s w hw
  have hwf : (Instr.parse w).wf s.params = true := hw
  rw [exec_parse]
  refine ⟨fun ⟨hrun, hfsm⟩ => ?_, fun c hhalted => acceptCommand_halted hwf hhalted⟩
  rw [acceptCommand_performs hwf hrun hfsm]
  refine ⟨fun a f d hok => ?_, fun hframing => ?_, fun hchecksum => ?_⟩
  · rw [parseResponse_of_ok hok]
    rfl
  · rw [parseResponse_of_error hframing]
    rfl
  · rw [parseResponse_of_error hchecksum]
    rfl

end Sys2Proof.Machine
end

section
/-! PROOFS. The frame assembler (42_assembler.md): RXB, RXTO and FLUSH as whole next states (R141 to R144), and what a
HANDOFF clears, logs and leaves unchanged (R146, R147). -/

namespace Sys2Proof.Machine

open Sys2Proof Sys2Proof.Spec

/-! ### The host's commands -/

/-- The terminator the statements write out is the one the model tests for (R141). -/
theorem terminated_iff (s : Bytes) : Terminated s ↔ endsWithTerm s = true := (endsWithTerm_iff s).symm

theorem not_terminated_iff (s : Bytes) : ¬ Terminated s ↔ endsWithTerm s = false := by
  rw [terminated_iff, Bool.not_eq_true]

/-- Settles O22: the three cases of `receive_cases` are the three clauses, and each excludes the other two. -/
theorem rxbAppendsAndDetectsBoundary : Obligations.RxbAppendsAndDetectsBoundary := by
  intro s v t
  rw [exec_rxb]
  refine ⟨fun ⟨hrun, hfsm⟩ => ?_, fun c hhalted => acceptCommand_halted rfl hhalted⟩
  intro nb out
  rw [acceptCommand_performs rfl hrun hfsm]
  obtain ⟨hterm, hrecv⟩ | ⟨hterm, hfull, hrecv⟩ | ⟨hterm, hroom, hrecv⟩ := receive_cases s.params v t s.blk
  · have hends : Terminated nb := (terminated_iff nb).2 hterm
    rw [hrecv]
    exact ⟨fun _ => rfl, fun hnot => absurd hends hnot, fun hnot => absurd hends hnot⟩
  · have hnot : ¬ Terminated nb := (not_terminated_iff nb).2 hterm
    rw [hrecv]
    exact ⟨fun hends => absurd hends hnot, fun _ _ => rfl, fun _ hroom => absurd hfull hroom⟩
  · have hnot : ¬ Terminated nb := (not_terminated_iff nb).2 hterm
    rw [hrecv]
    exact ⟨fun hends => absurd hends hnot, fun _ hfull => absurd hfull hroom, fun _ _ => rfl⟩

/-- The silence ends the frame (R142, R143). -/
theorem timeout_of_gap {t : Nat} {b : Block} (h : b.fsm = .accumulating ∧ (b.tLast + b.gap ≤ t ∨ b.gap = 0)) :
    b.timeout t = { b with fsm := .frameReady, rdyCause := .gap } := by
  rw [← gapOver_iff] at h
  exact if_pos h

/-- Without a byte pending, or before the gap has passed, a read timeout does nothing (R142, R143). -/
theorem timeout_of_not_gap {t : Nat} {b : Block} (h : ¬ (b.fsm = .accumulating ∧ (b.tLast + b.gap ≤ t ∨ b.gap = 0))) :
    b.timeout t = b := by
  rw [← gapOver_iff] at h
  exact if_neg h

/-- Settles O23: RXTO is accepted as every host command is, and its action is the read timeout. -/
theorem rxtoEndsFrameExactlyAtGap : Obligations.RxtoEndsFrameExactlyAtGap := by
  intro s t
  rw [exec_rxto]
  refine ⟨fun ⟨hrun, hfsm⟩ => ?_, fun c hhalted => acceptCommand_halted rfl hhalted⟩
  rw [acceptCommand_performs rfl hrun hfsm]
  constructor
  · intro hgap
    rw [timeout_of_gap hgap]
    rfl
  · intro hgap
    rw [timeout_of_not_gap hgap]
    rfl

/-- Settles O24: FLUSH is accepted as every host command is, and its action is to clear the buffer. -/
theorem flushDiscardsTheBuffer : Obligations.FlushDiscardsTheBuffer := by
  intro s
  rw [exec_flush]
  exact ⟨fun ⟨hrun, hfsm⟩ => acceptCommand_performs rfl hrun hfsm, fun _ hhalted => acceptCommand_halted rfl hhalted⟩

/-! ### The hand-off -/

/-- A delivery leaves the text alone, or a slave stores the data of a WriteText frame to itself or to all (R52, R172). -/
theorem Delivered.text {b u : Block} {r : Except ParseError Frame} (h : Delivered b r u) :
    u.text = b.text ∨ b.role = .slave ∧ ∃ a, (a = broadcast ∨ a = b.own) ∧ r = .ok ⟨a, fnWriteText, u.text⟩ := by
  cases h with
  | silent => exact .inl rfl
  | replied => exact .inl rfl
  | stored _ _ a _ hrole hr ha => exact .inr ⟨hrole, a, ha, hr⟩

/-- Only a slave sends (R180). -/
theorem Delivered.tx_slave {b u : Block} {r : Except ParseError Frame} (h : Delivered b r u) :
    u.tx = b.tx ∨ b.role = .slave := by
  cases h with
  | silent => exact .inl rfl
  | replied _ _ _ hrole => exact .inr hrole
  | stored _ _ _ _ hrole => exact .inr hrole

/-- A delivery writes neither the run state nor the configuration nor the time (R23, R27 to R30, R32). -/
theorem Delivered.frame {b u : Block} {r : Except ParseError Frame} (h : Delivered b r u) :
    u.run = b.run ∧ u.own = b.own ∧ u.gap = b.gap ∧ u.mode = b.mode ∧ u.role = b.role ∧ u.tLast = b.tLast := by
  cases h with
  | silent => exact ⟨rfl, rfl, rfl, rfl, rfl, rfl⟩
  | replied => exact ⟨rfl, rfl, rfl, rfl, rfl, rfl⟩
  | stored => exact ⟨rfl, rfl, rfl, rfl, rfl, rfl⟩

/-- Settles O25: a HANDOFF is one delivery, cleared; the delivery's own lemmas bound text, `S.tx`, log and the rest. -/
theorem handoffClearsAndLogsOnce : Obligations.HandoffClearsAndLogsOnce := by
  intro s hwaits
  obtain ⟨u, hu, hhandoff⟩ := handoff_cases s.params.lowerHex s.blk
  obtain ⟨tag, hlog⟩ := hu.log
  obtain ⟨hrun, hown, hgap, hmode, hrole, htime⟩ := hu.frame
  have htx : u.tx = s.blk.tx ∨ s.blk.role = .slave ∧ ∃ f d w, build s.blk.own f d = .ok w ∧ u.tx = s.blk.tx ++ w :=
    or_and_left.2 ⟨hu.tx_slave, hu.tx⟩
  refine ⟨_, tag, exec_handoff_ready ((ready_iff _).2 hwaits), ?_⟩
  rw [hhandoff]
  exact ⟨rfl, rfl, rfl, hlog, hu.text, htx, hrun, hown, hgap, hmode, hrole, htime, rfl, rfl, rfl, rfl⟩

end Sys2Proof.Machine
end

section
/-! PROOFS. The dispatcher (43_dispatcher.md): what a delivery does with each parse result (R170 to R177, R180), and the
whole hand-off of a slave and of a receiver. -/

namespace Sys2Proof.Machine

open Sys2Proof Sys2Proof.Spec

/-! ### The operations of the dispatcher -/

/-- A station's own address is never the broadcast address (R204). -/
theorem own_ne_broadcast {b : Block} (h : 1 ≤ b.own.toNat) : b.own ≠ broadcast := by
  intro h0
  rw [h0] at h
  exact absurd h (by decide)

theorem writeText_broadcast (b : Block) (d : Bytes) : b.writeText broadcast d =
    { b with text := d, log := b.log ++ [⟨b.rdyCause, .acceptedWriteText broadcast⟩] } := rfl

theorem writeText_unicast {b : Block} {a : Byte} (ha : a ≠ broadcast) (hlegal : b.own.toNat ≤ 247) (d : Bytes) :
    b.writeText a d = { b with
      text := d, tx := b.tx ++ wireBytes b.own fnWriteText okPayload
      log := b.log ++ [⟨b.rdyCause, .acceptedWriteText a⟩] } := by
  simp only [Block.writeText, if_pos ha]
  rw [reply_legal (b := b.storeText d) hlegal]
  rfl

theorem readText_broadcast (b : Block) : b.readText broadcast = b.emitLog .ignoredBroadcastRead := rfl

theorem readText_unicast {b : Block} {a : Byte} (ha : a ≠ broadcast) (hlegal : b.own.toNat ≤ 247) :
    b.readText a = { b with
      tx := b.tx ++ wireBytes b.own fnReadText b.text
      log := b.log ++ [⟨b.rdyCause, .acceptedReadText a⟩] } := by
  unfold Block.readText
  rw [if_neg ha, reply_legal hlegal]
  rfl

theorem unsupportedFunc_broadcast (b : Block) (f : Byte) :
    b.unsupportedFunc broadcast f = b.emitLog (.ignoredBroadcastUnsupported f) := rfl

theorem unsupportedFunc_unicast {b : Block} {a : Byte} (ha : a ≠ broadcast) (hlegal : b.own.toNat ≤ 247) (f : Byte) :
    b.unsupportedFunc a f = { b with
      tx := b.tx ++ wireBytes b.own (f ||| excBit) excPayload
      log := b.log ++ [⟨b.rdyCause, .rejectedIllegalFunction f⟩] } := by
  unfold Block.unsupportedFunc Block.exceptionReply
  rw [if_neg ha, reply_legal hlegal]
  rfl

/-! ### What a delivery does with a parse result -/

/-- A parse failure is logged and nothing else, in either role (R170, R180). -/
theorem deliver_error (b : Block) (k : ParseError) : b.deliver (.error k) = b.emitLog (.rejected k) := by
  unfold Block.deliver
  cases b.role with
  | slave => rfl
  | receiver => rfl

theorem deliver_receiver {b : Block} (hrole : b.role = .receiver) (fr : Frame) :
    b.deliver (.ok fr) = b.emitLog (.frame fr.address fr.function fr.data) := by
  unfold Block.deliver
  rw [hrole]
  rfl

section
variable {b : Block} {a f : Byte} {d : Bytes} (hrole : b.role = .slave)
include hrole

/-- A slave's delivery tests the address before anything else (R171, R178). -/
theorem deliver_slave (fr : Frame) : b.deliver (.ok fr) = b.addressed fr.address fun b =>
    if fr.function = fnWriteText then b.writeText fr.address fr.data
    else if fr.function = fnReadText then b.readText fr.address
    else b.unsupportedFunc fr.address fr.function := by
  unfold Block.deliver
  rw [hrole]
  rfl

theorem deliver_otherStation (h0 : a ≠ broadcast) (hown : a ≠ b.own) :
    b.deliver (.ok ⟨a, f, d⟩) = b.emitLog (.ignoredNotAddressed a) := by
  rw [deliver_slave hrole, addressed_stop h0 hown]

variable (ha : a = broadcast ∨ a = b.own)
include ha

theorem deliver_writeText : b.deliver (.ok ⟨a, fnWriteText, d⟩) = b.writeText a d := by
  rw [deliver_slave hrole, addressed_pass ha, if_pos rfl]

theorem deliver_readText : b.deliver (.ok ⟨a, fnReadText, d⟩) = b.readText a := by
  have hne : fnReadText ≠ fnWriteText := by decide
  rw [deliver_slave hrole, addressed_pass ha, if_neg hne, if_pos rfl]

theorem deliver_unsupportedFunc (hw : f ≠ fnWriteText) (hr : f ≠ fnReadText) :
    b.deliver (.ok ⟨a, f, d⟩) = b.unsupportedFunc a f := by
  rw [deliver_slave hrole, addressed_pass ha, if_neg hw, if_neg hr]

end

/-! ### The hand-off -/

section
variable {s : State} {r : Except ParseError Frame} {d x : Bytes} {tag : Tag}
variable (hwaits : FrameWaits s) (hparse : parse s.params.lowerHex s.blk.buf = r)
include hwaits hparse

/-- The hand-off is the delivery of what was parsed, cleared (R146, R147). -/
theorem exec_handoff_delivers : exec .handoff s = .next (s.withBlk (s.blk.deliver r).clearBuf) := by
  subst hparse
  exact exec_handoff_ready ((ready_iff _).2 hwaits)

theorem exec_handoff_replied
    (h : s.blk.deliver r = { s.blk with text := d, tx := s.blk.tx ++ x, log := s.blk.log ++ [⟨s.blk.rdyCause, tag⟩] }) :
    exec .handoff s = .next (handedOff s d x tag) := by
  rw [exec_handoff_delivers hwaits hparse, h]
  rfl

/-- A delivery that sends nothing makes the hand-off add nothing to `S.tx`. -/
theorem exec_handoff_silent
    (h : s.blk.deliver r = { s.blk with text := d, log := s.blk.log ++ [⟨s.blk.rdyCause, tag⟩] }) :
    exec .handoff s = .next (handedOff s d [] tag) := by
  refine exec_handoff_replied hwaits hparse ?_
  rw [h, List.append_nil]

end

/-- A hand-off that keeps the text and sends nothing writes, besides the log, the three fields it clears. -/
theorem handedOff_logged (s : State) (tag : Tag) : handedOff s s.blk.text [] tag = { s with
    blk := { s.blk with
      buf := [], fsm := .idle, rdyCause := .none
      log := s.blk.log ++ [⟨s.blk.rdyCause, tag⟩] } } := by
  unfold handedOff
  rw [List.append_nil]

/-- Settles O26: the delivery of a parse failure only logs it, whatever the role. -/
theorem handoffRejectsWhatDoesNotParse : Obligations.HandoffRejectsWhatDoesNotParse := by
  intro s k hwaits hparse
  rw [exec_handoff_silent hwaits hparse (deliver_error s.blk k), handedOff_logged]

/-- Settles O40: a receiver's delivery only logs, the error kind or the frame as it was parsed. -/
theorem receiverReportsEveryFrame : Obligations.ReceiverReportsEveryFrame := by
  intro s hwaits hrole
  refine ⟨fun k hparse => ?_, fun a f d hparse => ?_⟩
  · exact exec_handoff_silent hwaits hparse (deliver_error s.blk k)
  · exact exec_handoff_silent hwaits hparse (deliver_receiver hrole ⟨a, f, d⟩)

/-- Settles O31: each clause names the operation the delivery selects by address and function, and what that operation
does to the text, `S.tx` and the log; a legal own address makes every reply a frame that `build` gives. -/
theorem slaveHandoffActsOnEachFrame : Obligations.SlaveHandoffActsOnEachFrame := by
  intro s ⟨hwaits, hrole, hpos, hlegal⟩
  have hown : s.blk.own ≠ broadcast := own_ne_broadcast hpos
  have hall : broadcast = broadcast ∨ broadcast = s.blk.own := .inl rfl
  have hself : s.blk.own = broadcast ∨ s.blk.own = s.blk.own := .inr rfl
  refine ⟨fun k hparse => exec_handoff_silent hwaits hparse (deliver_error s.blk k), fun a f d hparse => ?_⟩
  refine ⟨?other, ?writeAll, ?writeSelf, ?readAll, ?readSelf, ?unsupportedAll, ?unsupportedSelf⟩
  case other =>
    intro h0 hne
    exact exec_handoff_silent hwaits hparse (deliver_otherStation hrole h0 hne)
  case writeAll =>
    rintro rfl rfl
    exact exec_handoff_silent hwaits hparse ((deliver_writeText hrole hall).trans (writeText_broadcast _ d))
  case writeSelf =>
    rintro rfl rfl
    exact ⟨_, build_ok hlegal _ _,
      exec_handoff_replied hwaits hparse ((deliver_writeText hrole hself).trans (writeText_unicast hown hlegal d))⟩
  case readAll =>
    rintro rfl rfl
    exact exec_handoff_silent hwaits hparse ((deliver_readText hrole hall).trans (readText_broadcast _))
  case readSelf =>
    rintro rfl rfl
    exact ⟨_, build_ok hlegal _ _,
      exec_handoff_replied hwaits hparse ((deliver_readText hrole hself).trans (readText_unicast hown hlegal))⟩
  case unsupportedAll =>
    rintro hw hr rfl
    exact exec_handoff_silent hwaits hparse
      ((deliver_unsupportedFunc hrole hall hw hr).trans (unsupportedFunc_broadcast _ f))
  case unsupportedSelf =>
    rintro hw hr rfl
    exact ⟨_, build_ok hlegal _ _, exec_handoff_replied hwaits hparse
      ((deliver_unsupportedFunc hrole hself hw hr).trans (unsupportedFunc_unicast hown hlegal f))⟩

end Sys2Proof.Machine
end

section
/-! PROOFS. Control (44_control.md): RESET with its checks (R202 to R205), and what a halted block answers (R206). -/

namespace Sys2Proof.Machine

open Sys2Proof Sys2Proof.Spec

/-! ### RESET -/

/-- RTU is refused before the address is looked at (R203). -/
theorem configError_rtu (own : Byte) (role : Role) : configError own .rtu role = some .unsupportedMode := rfl

/-- A slave needs a station address (R204). -/
theorem configError_slave_illegal {own : Byte} (h : ¬ (1 ≤ own.toNat ∧ own.toNat ≤ 247)) :
    configError own .ascii .slave = some .invalidAddress := by
  rw [← stationLegal_iff, Bool.not_eq_true] at h
  unfold configError
  rw [if_neg nofun, if_pos ⟨rfl, h⟩]

section
variable {own : Byte} {mode : Mode} {role : Role} (s : State) (gap : Nat)

/-- A RESET that passes its checks runs the block, in every state (R202, R205). -/
theorem exec_reset_runs (h : configError own mode role = none) :
    exec (.reset own gap mode role) s = .next { s with
      blk := configured s.blk own gap mode role .run
      responses := s.responses ++ [.ok] } := by
  simp only [exec, execReset, h]
  rfl

/-- A RESET that fails a check halts the block with the cause it answers, in every state (R202 to R204). -/
theorem exec_reset_halts {k : Status} (h : configError own mode role = some k) :
    exec (.reset own gap mode role) s = .next { s with
      blk := configured s.blk own gap mode role (.halted k)
      responses := s.responses ++ [.err k] } := by
  simp only [exec, execReset, h]
  rfl

end

/-- Settles O42: each clause is one result of the configuration check, in the check's order. -/
theorem resetConfiguresOrHalts : Obligations.ResetConfiguresOrHalts := by
  intro s own gap
  refine ⟨fun role hlegal => ?runs, fun role => ?rtu, fun hrange => ?address⟩
  case runs => exact exec_reset_runs s gap ((configError_none_iff own .ascii role).2 ⟨rfl, hlegal⟩)
  case rtu => exact exec_reset_halts s gap (configError_rtu own role)
  case address =>
    have hillegal : ¬ (1 ≤ own.toNat ∧ own.toNat ≤ 247) := by
      obtain rfl | hhigh := hrange
      · decide
      · omega
    exact exec_reset_halts s gap (configError_slave_illegal hillegal)

/-- RESET's next state carries the verdict the statements write anew (R202 to R205). -/
theorem exec_reset_verdict (s : State) (own : Byte) (gap : Nat) (mode : Mode) (role : Role) :
    exec (.reset own gap mode role) s = .next { s with
      blk := configured s.blk own gap mode role (resetVerdict own mode role).1
      responses := s.responses ++ [(resetVerdict own mode role).2] } := by
  cases mode with
  | rtu => exact exec_reset_halts s gap (configError_rtu own role)
  | ascii =>
    by_cases hbad : role = .slave ∧ ¬ (1 ≤ own.toNat ∧ own.toNat ≤ 247)
    · have hverdict : resetVerdict own .ascii role = (.halted .invalidAddress, .err .invalidAddress) := if_pos hbad
      obtain ⟨rfl, hillegal⟩ := hbad
      rw [hverdict]
      exact exec_reset_halts s gap (configError_slave_illegal hillegal)
    · have hverdict : resetVerdict own .ascii role = (.run, .ok) := if_neg hbad
      have hlegal : role = .slave → 1 ≤ own.toNat ∧ own.toNat ≤ 247 := by simpa using hbad
      rw [hverdict]
      exact exec_reset_runs s gap ((configError_none_iff own .ascii role).2 ⟨rfl, hlegal⟩)

/-! ### The halted block -/

/-- The commands 0x1 to 0x6 share one acceptance (R206, R209). -/
theorem exec_of_isRunCommand {i : Instr} (h : IsRunCommand i) (s : State) :
    ∃ act, exec i s = acceptCommand i s act := by
  obtain ⟨v, t, rfl⟩ | ⟨t, rfl⟩ | rfl | ⟨p, rfl⟩ | ⟨a, f, d, rfl⟩ | ⟨w, rfl⟩ := h
  · exact ⟨_, exec_rxb v t s⟩
  · exact ⟨_, exec_rxto t s⟩
  · exact ⟨_, exec_flush s⟩
  · exact ⟨_, exec_lrc p s⟩
  · exact ⟨_, exec_build a f d s⟩
  · exact ⟨_, exec_parse w s⟩

/-- A HANDOFF is a step of a running block only (R146). -/
theorem run_of_exec_handoff {s t : State} (h : exec .handoff s = .next t) : s.blk.run = .run := by
  obtain ⟨hready, -⟩ := exec_handoff_next h
  exact ((ready_iff s.blk).1 hready).1

/-- Settles O43: the six commands share the acceptance that refuses, RESET has no acceptance test, and only a HANDOFF,
which a halted block does not take, touches a stream. -/
theorem haltedBlockRefusesCommands : Obligations.HaltedBlockRefusesCommands := by
  intro s c hhalted
  refine ⟨fun i hi hwf => ?refused, exec_reset_verdict s, fun t hstep => ?streams⟩
  case refused =>
    obtain ⟨act, hexec⟩ := exec_of_isRunCommand hi s
    rw [hexec]
    exact acceptCommand_halted hwf hhalted
  case streams =>
    obtain hkept | ⟨⟨n, hhandoff⟩, -⟩ := step_streams hstep
    · exact hkept
    · have hrun : s.blk.run = .run := run_of_exec_handoff (s := { s with choices := n }) hhandoff
      rw [hrun] at hhalted
      cases hhalted

end Sys2Proof.Machine
end

section
/-! PROOFS. The laws of the codec: the checksum's verification law (40_checksum.md R102), the round trip of `build` and
`parse` in both directions (41_codec.md R122), and what LOWER_HEX adds (30_encoding.md R74). -/

namespace Sys2Proof.Machine

open Sys2Proof Sys2Proof.Spec

/-- Settles O2: both halves read `lrc_eq_iff`, the first at the checksum itself and at zero. -/
theorem lrcVerificationLaw : Obligations.LrcVerificationLaw := by
  have htotal (p : Bytes) (c : Byte) : total (p ++ [c]) = byteSum p + c.toNat := by
    simp [total_eq_byteSum, byteSum]
  have hlaw (p : Bytes) (c : Byte) : lrc p = c ↔ total (p ++ [c]) % 256 = 0 := by
    rw [lrc_eq_iff, htotal]
  refine ⟨fun p => ?_, hlaw⟩
  have hsum : total (p ++ [lrc p]) % 256 = 0 := (hlaw p _).1 rfl
  exact ⟨hsum, (lrc_eq_iff _ 0).2 hsum⟩

/-! ### From the fields to the wire and back -/

/-- The wire frame of any fields parses to them, whatever the address and LOWER_HEX (R122). -/
theorem parse_wireBytes (lower : Bool) (a f : Byte) (d : Bytes) : parse lower (wireBytes a f d) = .ok ⟨a, f, d⟩ :=
  (parse_ok_iff lower _ a f d).2
    ⟨_, lrc ([a, f] ++ d), wireBytes_eq_cons a f d, hexDecode_hexU lower _,
      (lrcVerificationLaw.1 ([a, f] ++ d)).1⟩

/-- Settles O7: a legal address makes `build` answer the wire frame, and every wire frame parses to its fields. -/
theorem parseOfBuildRoundTrip : Obligations.ParseOfBuildRoundTrip := by
  intro lower a f d hlegal
  exact ⟨_, build_ok hlegal f d, parse_wireBytes lower a f d⟩

/-! ### From the wire to the fields and back -/

/-- Without lower-case digits a nibble has one character (R73, R74). -/
theorem digitU_of_nib {c : Byte} {n : Nat} (h : nib false c = some n) : digitU (BitVec.ofNat 4 n) = c := by
  obtain hupper | ⟨hlower, -⟩ := (nib_eq_some_iff false c n).1 h
  · have hn : (BitVec.ofNat 4 n).toNat = n := Nat.mod_eq_of_lt (nib_lt h)
    rw [← hn, upperDigits_getElem?, Option.some.injEq] at hupper
    exact hupper
  · cases hlower

/-- Two nibbles are the halves of the byte they make. -/
theorem nibbles_ofNat {y : Nat} (hy : y < 16) (x : Nat) :
    (BitVec.ofNat 8 (x * 16 + y)).extractLsb' 4 4 = BitVec.ofNat 4 x ∧
      (BitVec.ofNat 8 (x * 16 + y)).extractLsb' 0 4 = BitVec.ofNat 4 y := by
  constructor
  · apply BitVec.eq_of_toNat_eq
    rw [highNibble_toNat, BitVec.toNat_ofNat, BitVec.toNat_ofNat]
    omega
  · apply BitVec.eq_of_toNat_eq
    rw [lowNibble_toNat, BitVec.toNat_ofNat, BitVec.toNat_ofNat]
    omega

/-- Without lower-case digits decoded bytes have one spelling, the encoder's (R73, R74). -/
theorem hexU_of_hexDecode : ∀ {s b : Bytes}, hexDecode false s = some b → hexU b = s
  | [], _, h => by cases h; rfl
  | [_], _, h => by cases h
  | h :: l :: s, b, hdec => by
    simp only [hexDecode] at hdec
    split at hdec
    · rename_i x y b' hx hy hb
      cases hdec
      obtain ⟨hhigh, hlow⟩ := nibbles_ofNat (nib_lt hy) x
      rw [hexU_cons, hhigh, hlow, digitU_of_nib hx, digitU_of_nib hy, hexU_of_hexDecode hb]
    · cases hdec

/-- Settles O8: the body is the upper-case spelling of what it decodes to, and its last byte is the checksum. -/
theorem upperCaseFrameIsCanonical : Obligations.UpperCaseFrameIsCanonical := by
  intro w ⟨a, f, d⟩ hparse hlegal
  obtain ⟨body, c, rfl, hdec, hsum⟩ := (parse_ok_iff false w a f d).1 hparse
  have hc : lrc ([a, f] ++ d) = c := (lrcVerificationLaw.2 ([a, f] ++ d) c).2 hsum
  rw [build_ok hlegal, wireBytes_eq_cons, hc, ← hexU_of_hexDecode hdec]
  rfl

/-! ### LOWER_HEX -/

/-- LOWER_HEX only adds digits: what decodes without them is the encoder's spelling, read back with either (R74). -/
theorem hexDecode_true_of_hexDecode_false {s b : Bytes} (h : hexDecode false s = some b) : hexDecode true s = some b := by
  rw [← hexU_of_hexDecode h]
  exact hexDecode_hexU true b

/-- Settles O9: the same body decodes to the same bytes, and nothing else in `parse` reads LOWER_HEX. -/
theorem lowerHexOnlyAddsFrames : Obligations.LowerHexOnlyAddsFrames := by
  intro w ⟨a, f, d⟩ hparse
  obtain ⟨body, c, hw, hdec, hsum⟩ := (parse_ok_iff false w a f d).1 hparse
  exact (parse_ok_iff true w a f d).2 ⟨body, c, hw, hexDecode_true_of_hexDecode_false hdec, hsum⟩

end Sys2Proof.Machine
end

section
/-! PROOFS. The decoder against the encoder and against the bounds (30_encoding.md R78, R79, R82 to R84, 00_scope.md R8):
the round trip of every row, well-formedness of what is decoded, and the refusal of what does not exist. -/

namespace Sys2Proof.Machine

open Sys2Proof Sys2Proof.Spec

/-! ### The command port -/

theorem decode_command_of_wf {p : Params} {c : RawCommand} {i : Instr} (hread : readCommand c = some i)
    (hwf : i.wf p = true) : decode p (.command c) = .ok i := by
  simp only [decode, decodeCommand, hread, hwf, if_true]

/-- A record whose operands have the right shape is rejected exactly when a length is beyond its bound (R84). -/
theorem decode_command_tooLong_iff {p : Params} {c : RawCommand} {i : Instr} (hread : readCommand c = some i) :
    decode p (.command c) = .error .tooLong ↔ i.wf p = false := by
  simp only [decode, decodeCommand, hread]
  cases i.wf p <;> simp

theorem modeOfBit_bitOfMode (m : Mode) : modeOfBit (bitOfMode m) = m := by
  cases m <;> rfl

theorem roleOfBit_bitOfRole (r : Role) : roleOfBit (bitOfRole r) = r := by
  cases r <;> rfl

/-- The opcodes 0x8 to 0xF carry their instruction in the low three bits (R82). -/
theorem readCommand_reserved8F (low : BitVec 3) : readCommand ⟨1#1 ++ low, []⟩ = some (.reservedCmd8F low) := by
  revert low; decide

/-- A command's record spells that command (R82). -/
theorem readCommand_encodeCommand {i : Instr} {c : RawCommand} (h : encodeCommand i = some c) :
    readCommand c = some i := by
  cases i with
  | reset own gap mode role =>
    cases h
    simp [readCommand, modeOfBit_bitOfMode, roleOfBit_bitOfRole]
  | reservedCmd8F low => cases h; exact readCommand_reserved8F low
  | rxb | rxto | flush | lrc | build | parse | reservedCmd7 => cases h; rfl
  | handoff | writeText | readText | unsupportedFunc | exceptionReply | wireFrame => cases h

/-! ### The frame rows -/

theorem functionInstr_unsupported {f : Byte} (hw : f ≠ fnWriteText) (hr : f ≠ fnReadText) (a : Byte) (d : Bytes) :
    functionInstr ⟨a, f, d⟩ = .unsupportedFunc a f d := by
  simp only [functionInstr, if_neg hw, if_neg hr]

theorem unsupported_iff (f : Byte) : unsupported f = true ↔ f ≠ fnWriteText ∧ f ≠ fnReadText := by
  simp [unsupported, fnWriteText, fnReadText]

/-- The operation a function byte selects exists when the frame's data fits (R78, R79; log entry 12). -/
theorem functionInstr_wf {p : Params} {fr : Frame} (h : within fr.data p.dataMax = true) :
    (functionInstr fr).wf p = true := by
  obtain ⟨a, f, d⟩ := fr
  by_cases hw : f = fnWriteText
  · subst hw; exact h
  by_cases hr : f = fnReadText
  · subst hr; exact h
  rw [functionInstr_unsupported hw hr]
  exact Bool.and_eq_true_iff.2 ⟨(unsupported_iff f).2 ⟨hw, hr⟩, h⟩

theorem decode_received {p : Params} {fr : Frame} (h : within fr.data p.dataMax = true) :
    decode p (.received fr) = .ok (functionInstr fr) := by
  simp only [decode, h, if_true]

/-- A frame within DATA_MAX is decoded from its own wire form (R71, R122). -/
theorem decode_wireBytes {p : Params} {d : Bytes} (h : within d p.dataMax = true) (a f : Byte) :
    decode p (.wire (wireBytes a f d)) = .ok (.wireFrame a f d) := by
  have hfits : within (wireBytes a f d) p.bufCapacity = true := (within_iff _ _).2 fun _ hc => wireBytes_fits h a f hc
  simp only [decode, hfits, if_true, parse_wireBytes]

/-- Settles O10: a command is read back from its record, and each other row from the form R71 or R78 gives it. -/
theorem decodeOfEncodeEveryInstruction : Obligations.DecodeOfEncodeEveryInstruction := by
  intro p i hwf
  cases hc : encodeCommand i with
  | some c =>
    simp only [encode, hc]
    exact decode_command_of_wf (readCommand_encodeCommand hc) hwf
  | none =>
    simp only [encode, hc]
    cases i with
    | handoff => rfl
    | writeText a d => exact decode_received hwf
    | readText a d => exact decode_received hwf
    | unsupportedFunc a f d =>
      obtain ⟨hf, hd⟩ := Bool.and_eq_true_iff.1 hwf
      obtain ⟨hw, hr⟩ := (unsupported_iff f).1 hf
      exact (decode_received (fr := ⟨a, f, d⟩) hd).trans (congrArg _ (functionInstr_unsupported hw hr a d))
    | exceptionReply f => exact if_pos hwf
    | wireFrame a f d => exact decode_wireBytes hwf a f
    | reset | rxb | rxto | flush | lrc | build | parse | reservedCmd7 | reservedCmd8F => cases hc

/-- Settles O11: each encoded form is decoded only behind the test its rows need. -/
theorem decodedInstructionsAreWellFormed : Obligations.DecodedInstructionsAreWellFormed := by
  intro p c i h
  cases c with
  | command c => exact (decodeCommand_ok h).2
  | wire w =>
    simp only [decode] at h
    split at h
    · rename_i hw
      split at h
      · rename_i fr hparse
        cases h
        exact parse_fits hparse ((within_iff w _).1 hw)
      · cases h
    · cases h
  | received fr =>
    simp only [decode] at h
    split at h
    · rename_i hd
      cases h
      exact functionInstr_wf hd
    · cases h
  | reply f =>
    simp only [decode] at h
    split at h
    · rename_i hf
      cases h
      exact hf
    · cases h
  | internal => cases h; rfl

/-- Settles O13: the three clauses are the three branches of `functionInstr`. -/
theorem functionByteSelectsOperation : Obligations.FunctionByteSelectsOperation := by
  intro p a f d hd
  rw [decode_received (fr := ⟨a, f, d⟩) hd]
  refine ⟨?_, ?_, fun hw hr => ?_⟩
  · rintro rfl; rfl
  · rintro rfl; rfl
  · rw [functionInstr_unsupported hw hr]

/-- Settles O14: the words are written out, and the decoder is evaluated on each. -/
theorem writtenOutWordsDecode : Obligations.WrittenOutWordsDecode := by
  unfold Obligations.WrittenOutWordsDecode
  decide

/-! ### What does not exist -/

theorem acceptCommand_illFormed {i : Instr} {s : State} {act : State → State} (h : i.wf s.params = false) :
    acceptCommand i s act = .refused .illFormed := by
  simp [acceptCommand, h]

theorem internalStep_illFormed {i : Instr} {en : Bool} {s : State} {act : Block → Block} (h : i.wf s.params = false) :
    internalStep i en s act = .refused .illFormed := by
  simp [internalStep, h]

/-- The four ways the rows of the table are performed: RESET, the acceptance of a command, of a reserved one, and a step
of the block's own. No action writes the parameters. -/
theorem exec_shape (i : Instr) (s : State) :
    (∃ own gap mode role, i = .reset own gap mode role) ∨
      (∃ act : State → State, exec i s = acceptCommand i s act ∧ ∀ u, (act u).params = u.params) ∨
      IsReserved i ∨ ∃ enabled act, exec i s = internalStep i enabled s act := by
  cases i with
  | reset own gap mode role => exact .inl ⟨own, gap, mode, role, rfl⟩
  | rxb v t => exact .inr (.inl ⟨_, exec_rxb v t s, fun _ => rfl⟩)
  | rxto t => exact .inr (.inl ⟨_, exec_rxto t s, fun _ => rfl⟩)
  | flush => exact .inr (.inl ⟨_, exec_flush s, fun _ => rfl⟩)
  | lrc x => exact .inr (.inl ⟨_, exec_lrc x s, fun _ => rfl⟩)
  | build a f d => exact .inr (.inl ⟨_, exec_build a f d s, fun _ => rfl⟩)
  | parse w => exact .inr (.inl ⟨_, exec_parse w s, fun _ => rfl⟩)
  | reservedCmd7 => exact .inr (.inr (.inl (.inl rfl)))
  | reservedCmd8F low => exact .inr (.inr (.inl (.inr ⟨low, rfl⟩)))
  | handoff => exact .inr (.inr (.inr ⟨_, _, exec_handoff s⟩))
  | writeText a d => exact .inr (.inr (.inr ⟨_, _, exec_writeText a d s⟩))
  | readText a d => exact .inr (.inr (.inr ⟨_, _, exec_readText a d s⟩))
  | unsupportedFunc a f d => exact .inr (.inr (.inr ⟨_, _, exec_unsupportedFunc a f d s⟩))
  | exceptionReply f => exact .inr (.inr (.inr ⟨_, _, exec_exceptionReply f s⟩))
  | wireFrame a f d => exact .inr (.inr (.inr ⟨_, _, exec_wireFrame a f d s⟩))

/-- No instruction that does not exist has a meaning (R84). -/
theorem exec_illFormed {s : State} {i : Instr} (h : i.wf s.params = false) : exec i s = .refused .illFormed := by
  obtain ⟨own, gap, mode, role, rfl⟩ | ⟨act, hexec, -⟩ | hreserved | ⟨enabled, act, hexec⟩ := exec_shape i s
  · cases h
  · exact hexec.trans (acceptCommand_illFormed h)
  · rw [isReserved_wf hreserved] at h
    cases h
  · exact hexec.trans (internalStep_illFormed h)

theorem within_some_eq_false_iff (x : Bytes) (n : Nat) : within x (some n) = false ↔ n < x.length := by
  rw [← Bool.not_eq_true, within_iff]
  simp

/-- DATA_MAX of a capacity of `9 + k` bytes (R8). -/
theorem dataMax_finite (k : Nat) (lower : Bool) (tick : Nat) :
    Params.dataMax ⟨.finite k, lower, tick⟩ = some (k / 2) := by
  simp [Params.dataMax, Params.bufCapacity]

/-- LRC_MAX of a capacity of `9 + k` bytes (R8). -/
theorem lrcMax_finite (k : Nat) (lower : Bool) (tick : Nat) :
    Params.lrcMax ⟨.finite k, lower, tick⟩ = some (k / 2 + 3) := by
  rw [Params.lrcMax, dataMax_finite, Option.map_some]

/-- Settles O12: the bounds are those of R8 at a capacity of `9 + k`; the decoder and `exec` both test `Instr.wf`. -/
theorem overlongOperandsSpellNoCommand : Obligations.OverlongOperandsSpellNoCommand := by
  refine ⟨fun k lower tick a f x => ?bounded, fun lower tick a f x => ?unbounded, fun _ _ => exec_illFormed⟩
  case bounded =>
    have hlrc := decode_command_tooLong_iff (p := ⟨.finite k, lower, tick⟩) (c := ⟨0x4, [.bytes x]⟩) (i := .lrc x) rfl
    have hbuild := decode_command_tooLong_iff (p := ⟨.finite k, lower, tick⟩)
      (c := ⟨0x5, [.byte a, .byte f, .bytes x]⟩) (i := .build a f x) rfl
    have hparse := decode_command_tooLong_iff (p := ⟨.finite k, lower, tick⟩) (c := ⟨0x6, [.bytes x]⟩)
      (i := .parse x) rfl
    simp only [Instr.wf, lrcMax_finite, dataMax_finite, within_some_eq_false_iff] at hlrc hbuild
    exact ⟨hlrc.symm, hbuild.symm, ((within_some_eq_false_iff x (9 + k)).symm.trans hparse.symm)⟩
  case unbounded =>
    have hx : within x none = true := (within_iff x none).2 nofun
    exact ⟨decode_command_of_wf (i := .lrc x) rfl hx, decode_command_of_wf (i := .build a f x) rfl hx,
      decode_command_of_wf (i := .parse x) rfl hx⟩

end Sys2Proof.Machine
end

section
/-! PROOFS. The step (44_control.md R200, R208): which step is due in each situation, what a held command becomes, and
that every step answers. -/

namespace Sys2Proof.Machine

open Sys2Proof Sys2Proof.Spec

/-! ### The step that is due -/

theorem ready_of_frameWaits {s : State} (h : FrameWaits s) : s.blk.ready = true := (ready_iff s.blk).2 h

theorem not_ready_of_not_frameWaits {s : State} (h : ¬ FrameWaits s) : s.blk.ready = false := by
  simpa using (ready_iff s.blk).not.2 h

theorem stepCommand_ok {s : State} {c : RawCommand} {i : Instr} (h : decodeCommand s.params c = .ok i) :
    stepCommand c s = exec i s := by
  simp only [stepCommand, h]

theorem stepCommand_error {s : State} {c : RawCommand} {e : DecodeError} (h : decodeCommand s.params c = .error e) :
    stepCommand c s = .refused (.noSuchCommand e) := by
  simp only [stepCommand, h]

section
variable {s : State} {c : RawCommand} {rest : List RawCommand}

/-- Without a waiting frame the oldest command is due (R200). -/
theorem step_command (hready : s.blk.ready = false) (hport : s.port = c :: rest) :
    step s = stepCommand c { s with port := rest } := by
  simp [step, State.due, hready, hport]

/-- With nothing due the state is held (R237). -/
theorem step_idle (hready : s.blk.ready = false) (hport : s.port = []) : step s = .next s := by
  simp [step, State.due, hready, hport]

/-- A waiting frame is due before anything but a RESET (R200). -/
theorem step_handoff (hready : s.blk.ready = true) (hhead : ∀ c rest, s.port = c :: rest → isReset s.params c = false) :
    step s = exec .handoff s := by
  cases hport : s.port with
  | nil => simp [step, State.due, hready, hport]
  | cons c rest => simp [step, State.due, hready, hport, hhead c rest hport]

variable (hready : s.blk.ready = true) (hport : s.port = c :: rest) (hreset : isReset s.params c = true)
include hready hport hreset

/-- The choice of R208 falls on the RESET. -/
theorem step_resetFirst (hchoice : Config.resetFirst s.choices = true) :
    step s = stepCommand c { s with port := rest, choices := s.choices + 1 } := by
  simp [step, State.due, hready, hport, hreset, hchoice]

/-- The choice of R208 falls on the HANDOFF. -/
theorem step_handoffFirst (hchoice : Config.resetFirst s.choices = false) :
    step s = exec .handoff { s with choices := s.choices + 1 } := by
  simp [step, State.due, hready, hport, hreset, hchoice]

end

/-- Settles O15: without a waiting frame the oldest command is due. -/
theorem stepRunsTheDecodedCommand : Obligations.StepRunsTheDecodedCommand := by
  intro s c rest i hwaits hport hdec
  rw [step_command (not_ready_of_not_frameWaits hwaits) hport]
  exact stepCommand_ok (s := { s with port := rest }) hdec

/-- Settles O16: the oldest command is due even if it spells nothing, and an empty queue has none. -/
theorem stepWithoutACommandToRun : Obligations.StepWithoutACommandToRun := by
  intro s hwaits
  have hready := not_ready_of_not_frameWaits hwaits
  refine ⟨fun c rest e hport hdec => ?_, step_idle hready⟩
  rw [step_command hready hport]
  exact stepCommand_error (s := { s with port := rest }) hdec

/-- Settles O17: `HeadIsReset` is the test that lets a command go before the hand-off. -/
theorem stepHandsOffAWaitingFrame : Obligations.StepHandsOffAWaitingFrame := by
  intro s hwaits hhead
  refine step_handoff (ready_of_frameWaits hwaits) fun c rest hport => ?_
  rw [← Bool.not_eq_true, isReset_iff]
  rintro ⟨own, gap, mode, role, hdec⟩
  exact hhead own gap mode role rest ⟨c, hport, hdec⟩

/-- Settles O18: the free value selects the RESET, or the HANDOFF and after it, with no frame waiting, the RESET. -/
theorem resetRacesHandoff : Obligations.ResetRacesHandoff := by
  intro s own gap mode role rest hwaits ⟨c, hport, hdec⟩
  have hready := ready_of_frameWaits hwaits
  have hreset : isReset s.params c = true := (isReset_iff s.params c).2 ⟨own, gap, mode, role, hdec⟩
  refine ⟨fun hchoice => ?resetFirst, fun hchoice => ?handoffFirst⟩
  case resetFirst =>
    obtain ⟨r, answer, hexec⟩ :=
      exec_reset_next own gap mode role { s with port := rest, choices := s.choices + 1 }
    have hstep := (step_resetFirst hready hport hreset hchoice).trans
      (stepCommand_ok (s := { s with port := rest, choices := s.choices + 1 }) hdec)
    exact ⟨_, hstep.trans hexec, hexec, rfl, rfl, rfl⟩
  case handoffFirst =>
    obtain ⟨t, hexec, hfsm, hparams, hqueue⟩ : ∃ t, exec .handoff { s with choices := s.choices + 1 } = .next t ∧
        t.blk.fsm = .idle ∧ t.params = s.params ∧ t.port = s.port :=
      ⟨_, exec_handoff_ready (s := { s with choices := s.choices + 1 }) hready, rfl, rfl, rfl⟩
    rw [hport] at hqueue
    rw [← hparams] at hdec
    have hidle : ¬ FrameWaits t := fun ⟨_, hwaits⟩ => by simp [hfsm] at hwaits
    exact ⟨t, (step_handoffFirst hready hport hreset hchoice).trans hexec, hexec,
      stepRunsTheDecodedCommand t c rest _ hidle hqueue hdec⟩

/-! ### Commands that wait -/

theorem encodeCommand_of_isRunCommand {i : Instr} (h : IsRunCommand i) : ∃ c, encodeCommand i = some c := by
  obtain ⟨_, _, rfl⟩ | ⟨_, rfl⟩ | rfl | ⟨_, rfl⟩ | ⟨_, _, _, rfl⟩ | ⟨_, rfl⟩ := h <;> exact ⟨_, rfl⟩

theorem encodeCommand_of_isReserved {i : Instr} (h : IsReserved i) : ∃ c, encodeCommand i = some c := by
  obtain rfl | ⟨_, rfl⟩ := h <;> exact ⟨_, rfl⟩

theorem acceptReserved_held {s : State} (hready : s.blk.ready = true) (i : Instr) :
    acceptReserved i s = .next (s.hold i) := by
  simp [acceptReserved, hready]

/-- Every command but RESET is put back while a frame waits (R140, R200). -/
theorem exec_held {s : State} {i : Instr} (hready : s.blk.ready = true) (hi : IsRunCommand i ∨ IsReserved i)
    (hwf : i.wf s.params = true) : exec i s = .next (s.hold i) := by
  obtain hrun | hreserved := hi
  · obtain ⟨act, hexec⟩ := exec_of_isRunCommand hrun s
    rw [hexec, acceptCommand_held hwf hready]
  · rw [exec_of_isReserved hreserved, acceptReserved_held hready]

/-- Settles O19: holding a command puts its own record at the head of the queue. -/
theorem commandsAreHeldWhileAFrameWaits : Obligations.CommandsAreHeldWhileAFrameWaits := by
  intro s i hwaits hi hwf
  obtain ⟨c, hc⟩ := hi.elim encodeCommand_of_isRunCommand encodeCommand_of_isReserved
  refine ⟨c, hc, ?_⟩
  rw [exec_held (ready_of_frameWaits hwaits) hi hwf, State.hold, hc]
  rfl

/-! ### Every step answers -/

/-- A record spells a RESET, one of the six commands of a running block, or a reserved one (R82). -/
theorem readCommand_kind {c : RawCommand} {i : Instr} (h : readCommand c = some i) :
    (∃ own gap mode role, i = .reset own gap mode role) ∨ IsRunCommand i ∨ IsReserved i := by
  obtain ⟨-, hi⟩ | ⟨-, hi⟩ | ⟨-, hi⟩ | ⟨-, hi⟩ | ⟨-, hi⟩ | ⟨-, hi⟩ | ⟨-, hi⟩ | ⟨-, hi⟩ | ⟨-, hi⟩ := readCommand_cases h
  · exact .inl hi
  · exact .inr (.inl (.inl hi))
  · exact .inr (.inl (.inr (.inl hi)))
  · exact .inr (.inl (.inr (.inr (.inl hi))))
  · exact .inr (.inl (.inr (.inr (.inr (.inl hi)))))
  · exact .inr (.inl (.inr (.inr (.inr (.inr (.inl hi))))))
  · exact .inr (.inl (.inr (.inr (.inr (.inr (.inr hi))))))
  · exact .inr (.inr (.inl hi))
  · exact .inr (.inr (.inr hi))

theorem acceptCommand_answers {i : Instr} {s : State} (hwf : i.wf s.params = true) (act : State → State) :
    ∃ t, acceptCommand i s act = .next t := by
  cases hready : s.blk.ready with
  | true => exact ⟨_, acceptCommand_held hwf hready⟩
  | false =>
    cases hrun : s.blk.run with
    | halted c => exact ⟨_, acceptCommand_halted hwf hrun⟩
    | run => exact ⟨_, acceptCommand_performs hwf hrun (not_ready_fsm hrun hready)⟩

/-- A reserved command is held or answered, and nothing else (R207). -/
theorem acceptReserved_cases (i : Instr) (s : State) :
    acceptReserved i s = .next (s.hold i) ∨ acceptReserved i s = .next (s.respond (.err .illegalCommand)) := by
  cases hready : s.blk.ready with
  | true => exact .inl (acceptReserved_held hready i)
  | false => exact .inr (acceptReserved_answers hready i)

/-- A record that decodes is performed without fault or refusal (R230). -/
theorem stepCommand_answers {s : State} {c : RawCommand} {i : Instr} (h : decodeCommand s.params c = .ok i) :
    ∃ t, stepCommand c s = .next t := by
  obtain ⟨hread, hwf⟩ := decodeCommand_ok h
  rw [stepCommand_ok h]
  obtain ⟨own, gap, mode, role, rfl⟩ | hrun | hreserved := readCommand_kind hread
  · obtain ⟨_, _, hexec⟩ := exec_reset_next own gap mode role s
    exact ⟨_, hexec⟩
  · obtain ⟨act, hexec⟩ := exec_of_isRunCommand hrun s
    rw [hexec]
    exact acceptCommand_answers hwf act
  · rw [exec_of_isReserved hreserved]
    exact (acceptReserved_cases i s).elim (fun hheld => ⟨_, hheld⟩) fun hanswered => ⟨_, hanswered⟩

/-- A waiting frame makes the step answer, whatever stands in the queue (R146, R208). -/
theorem step_answers_of_ready {s : State} (hready : s.blk.ready = true) : ∃ t, step s = .next t := by
  by_cases hhead : ∀ c rest, s.port = c :: rest → isReset s.params c = false
  · rw [step_handoff hready hhead]
    exact ⟨_, exec_handoff_ready hready⟩
  · push Not at hhead
    obtain ⟨c, rest, hport, hreset⟩ := hhead
    have hreset : isReset s.params c = true := Bool.eq_true_of_not_eq_false hreset
    cases hchoice : Config.resetFirst s.choices with
    | true =>
      obtain ⟨own, gap, mode, role, hdec⟩ := (isReset_iff s.params c).1 hreset
      rw [step_resetFirst hready hport hreset hchoice]
      exact stepCommand_answers (s := { s with port := rest, choices := s.choices + 1 }) hdec
    | false =>
      rw [step_handoffFirst hready hport hreset hchoice]
      exact ⟨_, exec_handoff_ready (s := { s with choices := s.choices + 1 }) hready⟩

/-- Settles O20: the step is the hand-off or a RESET, and both leave the assembler idle. -/
theorem waitingFrameIsGoneAfterOneStep : Obligations.WaitingFrameIsGoneAfterOneStep := by
  intro s hwaits
  have hready := ready_of_frameWaits hwaits
  obtain ⟨t, hstep⟩ := step_answers_of_ready hready
  refine ⟨t, hstep, ?_⟩
  cases step_effect hstep with
  | idle hnot => rw [hready] at hnot; cases hnot
  | handoff => exact ⟨rfl, rfl⟩
  | command _ _ i _ _ _ _ _ heffect honly =>
    obtain ⟨own, gap, mode, role, rfl⟩ := honly hready
    cases heffect with
    | resetOk => exact ⟨rfl, rfl⟩
    | resetHalts => exact ⟨rfl, rfl⟩
    | refused _ _ _ hi => simp at hi

/-- Settles O21: a waiting frame is handed off or reset away; without one the queue is empty or its head decodes. -/
theorem everyStepAnswersANextState : Obligations.EveryStepAnswersANextState := by
  intro s hdecodes
  cases hready : s.blk.ready with
  | true => exact step_answers_of_ready hready
  | false =>
    cases hport : s.port with
    | nil => exact ⟨s, step_idle hready hport⟩
    | cons c rest =>
      obtain ⟨i, hdec⟩ := hdecodes c rest hport
      rw [step_command hready hport]
      exact stepCommand_answers (s := { s with port := rest }) hdec

end Sys2Proof.Machine
end

section
/-! PROOFS. The invariant of the block (10_state.md R22 to R33): at power-on, and kept by every command, by the hand-off
and so by every step. -/

namespace Sys2Proof.Machine

open Sys2Proof

/-! ### Idle blocks -/

/-- An idle block with an empty buffer satisfies what the invariant says of the assembler; the rest is about the text,
the configuration, the run state and the log (R22 to R33). -/
theorem Block.Inv.of_idle {p : Params} {b : Block} (hfsm : b.fsm = .idle) (hbuf : b.buf = [])
    (hcause : b.rdyCause = .none) (htext : ∀ n, p.textCap = some n → b.text.length ≤ n)
    (hreceiver : b.role = .receiver → b.text = []) (hmode : b.run = .run → b.mode = .ascii)
    (hown : b.run = .run → b.role = .slave → 1 ≤ b.own.toNat ∧ b.own.toNat ≤ 247)
    (hhalt : ∀ c, b.run = .halted c → c = .notConfigured ∨ c = .unsupportedMode ∨ c = .invalidAddress)
    (hlog : ∀ r ∈ b.log, r.cause ≠ .none) : b.Inv p where
  idle_iff := by simp [hfsm, hbuf]
  room := by simp [hfsm]
  unterminated := by simp [hfsm]
  buf_fits := by simp [hbuf]
  cause_none := by simp [hfsm, hcause]
  cause_term := by simp [hcause]
  cause_gap := by simp [hcause]
  cause_full := by simp [hcause]
  text_fits := htext
  receiver_text := hreceiver
  running_mode := hmode
  running_own := hown
  halted_idle := fun _ _ => hfsm
  halted_cause := hhalt
  log_cause := hlog

/-- Settles O51: the block at power-on is idle, halted with `notConfigured`, and has neither text nor log. -/
theorem invariantHoldsAtPowerOn : Obligations.InvariantHoldsAtPowerOn := by
  refine Block.Inv.of_idle rfl rfl rfl (fun _ _ => Nat.zero_le _) (fun _ => rfl) nofun nofun ?halt nofun
  rintro c ⟨⟩
  exact .inl rfl

section
variable {p : Params} {b : Block} (h : b.Inv p)
include h

theorem Block.Inv.clearBuf : b.clearBuf.Inv p :=
  .of_idle rfl rfl rfl h.text_fits h.receiver_text h.running_mode h.running_own h.halted_cause h.log_cause

/-- A RESET that passes its checks (R203, R204). -/
theorem Block.Inv.configure_run {own : Byte} {gap : Nat} {mode : Mode} {role : Role}
    (hlegal : configError own mode role = none) : (b.configure own gap mode role .run).Inv p := by
  obtain ⟨hmode, hown⟩ := (configError_none_iff own mode role).1 hlegal
  exact .of_idle rfl rfl rfl (fun _ _ => Nat.zero_le _) (fun _ => rfl) (fun _ => hmode) (fun _ => hown) nofun h.log_cause

/-- A RESET that fails a check halts with one of two causes (R23, R203, R204). -/
theorem Block.Inv.configure_halted {own : Byte} {gap : Nat} {mode : Mode} {role : Role} {k : Status}
    (herror : configError own mode role = some k) : (b.configure own gap mode role (.halted k)).Inv p := by
  refine .of_idle rfl rfl rfl (fun _ _ => Nat.zero_le _) (fun _ => rfl) nofun nofun ?halt h.log_cause
  rintro c ⟨⟩
  exact .inr (configError_some herror)

/-! ### The assembler -/

/-- Outside FRAME_READY the buffer has room for one more byte (R25). -/
theorem Block.Inv.room_for_one (hfsm : b.fsm ≠ .frameReady) {c : Nat} (hc : p.bufCapacity = some c) :
    b.buf.length < c := by
  cases hf : b.fsm with
  | idle =>
    have hnine := capacity_ge_nine hc
    rw [h.idle_iff.1 hf, List.length_nil]
    omega
  | accumulating => exact h.room hf c hc
  | frameReady => exact absurd hf hfsm

/-- A running block with a complete frame needs only that its cause and its buffer agree (R26). -/
theorem Block.Inv.frame_complete (hrun : b.run = .run) {nb : Bytes} (hne : nb ≠ [])
    (hfits : ∀ c, p.bufCapacity = some c → nb.length ≤ c) (t : Nat) {cause : Cause} (hcause : cause ≠ .none)
    (hterm : cause = .term → endsWithTerm nb = true) (hgap : cause = .gap → endsWithTerm nb = false)
    (hfull : cause = .full → p.bufCapacity = some nb.length ∧ endsWithTerm nb = false) :
    Block.Inv p { b with buf := nb, tLast := t, fsm := .frameReady, rdyCause := cause } :=
  { h with
    idle_iff := by simp [hne]
    room := nofun
    unterminated := nofun
    buf_fits := hfits
    cause_none := by simp [hcause]
    cause_term := hterm
    cause_gap := hgap
    cause_full := hfull
    halted_idle := by simp [hrun] }

theorem Block.Inv.receive (hrun : b.run = .run) (hfsm : b.fsm ≠ .frameReady) (v : Byte) (t : Nat) :
    (b.receive p v t).Inv p := by
  have hne : b.buf ++ [v] ≠ [] := List.concat_ne_nil v b.buf
  have hfits (c : Nat) (hc : p.bufCapacity = some c) : (b.buf ++ [v]).length ≤ c := by
    simpa using h.room_for_one hfsm hc
  obtain ⟨hterm, hrecv⟩ | ⟨hterm, hfull, hrecv⟩ | ⟨hterm, hnotFull, hrecv⟩ := receive_cases p v t b
  · rw [hrecv]
    exact h.frame_complete hrun hne hfits t nofun (fun _ => hterm) nofun nofun
  · rw [hrecv]
    exact h.frame_complete hrun hne hfits t nofun nofun nofun (fun _ => ⟨hfull, hterm⟩)
  · have hcause : b.rdyCause = .none := h.cause_none.2 hfsm
    rw [hrecv]
    exact { h with
      idle_iff := by simp
      room := fun _ c hc => lt_of_le_of_ne (hfits c hc) fun heq => hnotFull (hc.trans (congrArg some heq.symm))
      unterminated := fun _ => hterm
      buf_fits := hfits
      cause_none := by simp [hcause]
      cause_term := by simp [hcause]
      cause_gap := by simp [hcause]
      cause_full := by simp [hcause]
      halted_idle := by simp [hrun] }

theorem Block.Inv.timeout (hrun : b.run = .run) (t : Nat) : (b.timeout t).Inv p := by
  by_cases hgap : b.fsm = .accumulating ∧ (b.tLast + b.gap ≤ t ∨ b.gap = 0)
  · have hne : b.buf ≠ [] := fun hbuf => by simp [h.idle_iff.2 hbuf] at hgap
    rw [timeout_of_gap hgap]
    exact h.frame_complete hrun hne h.buf_fits b.tLast nofun nofun (fun _ => h.unterminated hgap.1) nofun
  · rw [timeout_of_not_gap hgap]
    exact h

/-! ### The hand-off -/

/-- The text after a delivery fits: it is the text before, or the data of a frame that fitted the buffer (R8, R172). -/
theorem Block.Inv.delivered_text_fits {lower : Bool} {u : Block} (hu : Delivered b (Machine.parse lower b.buf) u) {n : Nat}
    (hn : p.textCap = some n) : u.text.length ≤ n := by
  obtain hkept | ⟨-, a, -, hparse⟩ := hu.text
  · rw [hkept]
    exact h.text_fits n hn
  · exact (within_iff u.text p.dataMax).1 (parse_fits hparse h.buf_fits) n hn

theorem Block.Inv.handoff (hready : b.ready = true) (lower : Bool) : (b.handoff lower).Inv p := by
  obtain ⟨hrunning, hwaits⟩ := (ready_iff b).1 hready
  have hcause : b.rdyCause ≠ .none := fun hnone => h.cause_none.1 hnone hwaits
  obtain ⟨u, hu, hhandoff⟩ := handoff_cases lower b
  obtain ⟨tag, hlog⟩ := hu.log
  obtain ⟨hrun, hown, -, hmode, hrole, -⟩ := hu.frame
  rw [hhandoff]
  refine .of_idle rfl rfl rfl (fun n hn => h.delivered_text_fits hu hn) (fun hr => ?receiver) (fun _ => ?mode)
    (fun _ hr => ?own) (fun c hc => ?halt) ?log
  case receiver =>
    have hrecv : b.role = .receiver := hrole.symm.trans hr
    obtain hkept | ⟨hslave, -⟩ := hu.text
    · exact hkept.trans (h.receiver_text hrecv)
    · rw [hrecv] at hslave
      cases hslave
  case mode => exact hmode.trans (h.running_mode hrunning)
  case own =>
    rw [hown]
    exact h.running_own hrunning (hrole.symm.trans hr)
  case halt => exact h.halted_cause c (hrun.symm.trans hc)
  case log =>
    intro r hr
    simp only [hlog, List.mem_append, List.mem_singleton] at hr
    obtain hr | rfl := hr
    · exact h.log_cause r hr
    · exact hcause

/-! ### Every step -/

/-- Every performed command keeps the invariant. -/
theorem CommandEffect.keeps_inv {b' : Block} {i : Instr} {r : Response} (heffect : CommandEffect p b i b' r) :
    b'.Inv p := by
  cases heffect with
  | resetOk _ _ _ _ hlegal => exact h.configure_run hlegal
  | resetHalts _ _ _ _ _ herror => exact h.configure_halted herror
  | rxb v t hrun hfsm => exact h.receive hrun hfsm v t
  | rxto t hrun => exact h.timeout hrun t
  | flush => exact h.clearBuf
  | reserved7 | reserved8F | refused | lrc | build | parse => exact h

end

/-- Settles O52: a step holds the state, hands off, or performs one command, and no step writes the parameters. -/
theorem everyStepKeepsTheInvariant : Obligations.EveryStepKeepsTheInvariant := by
  intro s t h hstep
  cases step_effect hstep with
  | idle => exact h
  | handoff _ hready => exact Block.Inv.handoff h hready _
  | command _ _ _ _ _ _ _ _ heffect => exact CommandEffect.keeps_inv h heffect

end Sys2Proof.Machine
end

section
/-! PROOFS. The hand-off of a state with the invariant (42_assembler.md R146, R149): a buffer that parses runs as the row
WIRE_FRAME, one without its terminator is a framing error, and silence recovers. -/

namespace Sys2Proof.Machine

open Sys2Proof Sys2Proof.Spec

/-- A waiting frame that exists is delivered (R178, R180; log entry 6). -/
theorem exec_wireFrame_delivers {s : State} {a f : Byte} {d : Bytes} (hwaits : FrameWaits s)
    (hd : within d s.params.dataMax = true) :
    exec (.wireFrame a f d) s = .next (s.withBlk (s.blk.deliver (.ok ⟨a, f, d⟩))) := by
  have hwf : (Instr.wireFrame a f d).wf s.params = true := hd
  rw [exec_wireFrame]
  exact internalStep_enabled hwf (ready_of_frameWaits hwaits)

/-- Settles O27: the buffer fits the capacity, so its frame exists, and both rows make the same delivery. -/
theorem handoffRunsTheReceivedFrame : Obligations.HandoffRunsTheReceivedFrame := by
  intro s a f d hinv hwaits hparse
  have hd : within d s.params.dataMax = true := parse_fits hparse hinv.buf_fits
  exact ⟨_, exec_wireFrame_delivers hwaits hd, exec_handoff_delivers hwaits hparse⟩

/-- A buffer without the terminator does not parse (R114). -/
theorem parse_unterminated {w : Bytes} (h : endsWithTerm w = false) (lower : Bool) :
    parse lower w = .error .framing := by
  refine parse_not_framed lower w ?_
  rintro ⟨body, rfl⟩
  have hends : endsWithTerm (marker :: (body ++ [cr, lf])) = true := (endsWithTerm_iff _).2 ⟨marker :: body, rfl⟩
  rw [h] at hends
  cases hends

/-- Settles O28: GAP and FULL end a buffer that lacks the terminator, and such a buffer does not parse. -/
theorem unterminatedFramesAreFramingErrors : Obligations.UnterminatedFramesAreFramingErrors := by
  intro s hinv hwaits hcause
  have hterm : endsWithTerm s.blk.buf = false := hcause.elim hinv.cause_gap fun hfull => (hinv.cause_full hfull).2
  exact handoffRejectsWhatDoesNotParse s .framing hwaits (parse_unterminated hterm _)

/-- Settles O29: the RXTO ends the frame with GAP, which keeps the invariant, and the hand-off rejects it. -/
theorem silenceRecoversFromGarbage : Obligations.SilenceRecoversFromGarbage := by
  intro s now hinv hrun hfsm hsilence hport
  have hidle : ¬ FrameWaits s := fun ⟨_, hwaits⟩ => by simp [hfsm] at hwaits
  obtain ⟨u, hstep, hblk, hqueue⟩ : ∃ u, step s = .next u ∧
      u.blk = { s.blk with fsm := .frameReady, rdyCause := .gap } ∧ u.port = [] := by
    have hdec : decode s.params (.command ⟨0x2, [.nat now]⟩) = .ok (.rxto now) := decode_command_of_wf rfl rfl
    have hdue := stepRunsTheDecodedCommand s _ [] (.rxto now) hidle hport hdec
    have hgap := ((rxtoEndsFrameExactlyAtGap { s with port := [] } now).1 ⟨hrun, by simp [hfsm]⟩).1
      ⟨hfsm, .inl hsilence⟩
    exact ⟨_, hdue.trans hgap, rfl, rfl⟩
  have hwaits : FrameWaits u := by rw [FrameWaits, hblk]; exact ⟨hrun, rfl⟩
  have hhandoff := unterminatedFramesAreFramingErrors u (everyStepKeepsTheInvariant s u hinv hstep) hwaits
    (.inl (by rw [hblk]))
  have hnext := step_handoff (ready_of_frameWaits hwaits) fun c rest hc => by simp [hqueue] at hc
  refine ⟨u, _, hstep, hnext.trans hhandoff, rfl, rfl, ?_⟩
  rw [hblk]
  exact ⟨rfl, rfl, rfl⟩

end Sys2Proof.Machine
end

section
/-! PROOFS. The rows of the dispatcher by themselves (43_dispatcher.md R170 to R180; log entry 6), and who is answered
(R179). -/

namespace Sys2Proof.Machine

open Sys2Proof Sys2Proof.Spec

/-! ### The rows within a slave's hand-off -/

section
variable {s : State} {a f : Byte} {d : Bytes} (hwaits : FrameWaits s) (hrole : s.blk.role = .slave)
include hwaits hrole

/-- A row of the dispatcher is enabled at a slave's hand-off (R146). -/
theorem internalStep_dispatching {i : Instr} (hwf : i.wf s.params = true) (act : Block → Block) :
    internalStep i s.blk.dispatching s act = .next (s.withBlk (act s.blk)) :=
  internalStep_enabled hwf ((dispatching_iff s.blk).2 ⟨hwaits, hrole⟩)

variable (hd : within d s.params.dataMax = true)
include hd

theorem exec_writeText_dispatches :
    exec (.writeText a d) s = .next (s.withBlk (s.blk.addressed a (Block.writeText a d))) :=
  (exec_writeText a d s).trans (internalStep_dispatching (i := .writeText a d) hwaits hrole hd _)

theorem exec_readText_dispatches :
    exec (.readText a d) s = .next (s.withBlk (s.blk.addressed a (Block.readText a))) :=
  (exec_readText a d s).trans (internalStep_dispatching (i := .readText a d) hwaits hrole hd _)

theorem exec_unsupportedFunc_dispatches (hf : f ≠ fnWriteText ∧ f ≠ fnReadText) :
    exec (.unsupportedFunc a f d) s = .next (s.withBlk (s.blk.addressed a (Block.unsupportedFunc a f))) := by
  have hwf : (Instr.unsupportedFunc a f d).wf s.params = true := Bool.and_eq_true_iff.2 ⟨(unsupported_iff f).2 hf, hd⟩
  exact (exec_unsupportedFunc a f d s).trans (internalStep_dispatching hwaits hrole hwf _)

end

/-- Settles O30: the delivery of a slave filters and selects as the three rows do, that of a receiver reports. -/
theorem wireFrameDispatchesOrReports : Obligations.WireFrameDispatchesOrReports := by
  intro s a f d hwaits hd
  rw [exec_wireFrame_delivers hwaits hd]
  refine ⟨fun hrole => ⟨?write, ?read, fun hw hr => ?unsupported⟩, fun hrole => ?receiver⟩
  case write =>
    rintro rfl
    rw [exec_writeText_dispatches hwaits hrole hd, deliver_slave hrole]
    rfl
  case read =>
    rintro rfl
    rw [exec_readText_dispatches hwaits hrole hd, deliver_slave hrole]
    rfl
  case unsupported =>
    rw [exec_unsupportedFunc_dispatches hwaits hrole hd ⟨hw, hr⟩, deliver_slave hrole]
    simp only [if_neg (show ¬ f = fnWriteText from hw), if_neg (show ¬ f = fnReadText from hr)]
  case receiver =>
    rw [deliver_receiver hrole]
    rfl

/-- Settles O32: the four rows pass the same filter before anything else. -/
theorem otherStationsFramesAreIgnored : Obligations.OtherStationsFramesAreIgnored := by
  intro s i a f d ⟨hwaits, hrole, _, _⟩ h0 hown hi hwf
  obtain rfl | rfl | rfl | rfl := hi
  · rw [exec_writeText_dispatches hwaits hrole hwf, addressed_stop h0 hown]
    rfl
  · rw [exec_readText_dispatches hwaits hrole hwf, addressed_stop h0 hown]
    rfl
  · obtain ⟨hf, hd⟩ := Bool.and_eq_true_iff.1 hwf
    rw [exec_unsupportedFunc_dispatches hwaits hrole hd ((unsupported_iff f).1 hf), addressed_stop h0 hown]
    rfl
  · rw [exec_wireFrame_delivers hwaits hwf, deliver_otherStation hrole h0 hown]
    rfl

/-- Settles O33: the row is `Block.writeText`, whose two cases are the broadcast and the own address. -/
theorem writeTextStoresAndAcknowledges : Obligations.WriteTextStoresAndAcknowledges := by
  intro s d ⟨hwaits, hrole, hpos, hlegal⟩ hd
  refine ⟨?_, _, build_ok hlegal _ _, ?_⟩
  · rw [exec_writeText_dispatches hwaits hrole hd, addressed_pass (a := 0) (.inl rfl)]
    rfl
  · rw [exec_writeText_dispatches hwaits hrole hd, addressed_pass (.inr rfl),
      writeText_unicast (own_ne_broadcast hpos) hlegal]
    rfl

/-- Settles O34: the row is `Block.readText`, whose two cases are the broadcast and the own address. -/
theorem readTextAnswersUnicastOnly : Obligations.ReadTextAnswersUnicastOnly := by
  intro s d ⟨hwaits, hrole, hpos, hlegal⟩ hd
  refine ⟨?_, _, build_ok hlegal _ _, ?_⟩
  · rw [exec_readText_dispatches hwaits hrole hd, addressed_pass (a := 0) (.inl rfl)]
    rfl
  · rw [exec_readText_dispatches hwaits hrole hd, addressed_pass (.inr rfl),
      readText_unicast (own_ne_broadcast hpos) hlegal]
    rfl

/-- Settles O35: the row is `Block.unsupportedFunc`, whose two cases are the broadcast and the own address. -/
theorem unsupportedFunctionGetsException : Obligations.UnsupportedFunctionGetsException := by
  intro s f d ⟨hwaits, hrole, hpos, hlegal⟩ hd hw hr
  refine ⟨?_, _, build_ok hlegal _ _, ?_⟩
  · rw [exec_unsupportedFunc_dispatches hwaits hrole hd ⟨hw, hr⟩, addressed_pass (a := 0) (.inl rfl)]
    rfl
  · rw [exec_unsupportedFunc_dispatches hwaits hrole hd ⟨hw, hr⟩, addressed_pass (.inr rfl),
      unsupportedFunc_unicast (own_ne_broadcast hpos) hlegal]
    rfl

/-- Bit 7 of an exception's function byte is already set (R78). -/
theorem or_excBit_of_msb {f : Byte} (h : f.msb = true) : f ||| excBit = f := by
  revert f; decide

/-- Settles O36: the row is one reply from a legal own address, and its function byte already has bit 7. -/
theorem exceptionReplyIsAppendedWhole : Obligations.ExceptionReplyIsAppendedWhole := by
  intro s f ⟨hwaits, hrole, _, hlegal⟩ hmsb
  refine ⟨_, build_ok hlegal _ _, ?_⟩
  rw [exec_exceptionReply, internalStep_dispatching (i := .exceptionReply f) hwaits hrole hmsb, Block.exceptionReply,
    or_excBit_of_msb hmsb, reply_legal hlegal]
  rfl

/-! ### The rows elsewhere -/

theorem internalStep_fault {i : Instr} {s : State} (hwf : i.wf s.params = true) (act : Block → Block) :
    internalStep i false s act = .fault .stepNotEnabled := by
  simp [internalStep, hwf]

/-- Settles O41: each row is an internal step whose enabling test is the condition the clause denies. -/
theorem internalRowsNeedAWaitingFrame : Obligations.InternalRowsNeedAWaitingFrame := by
  intro s i hwf
  refine ⟨fun hi hwaits => ?handoff, fun hi hslave => ?dispatcher⟩
  case handoff =>
    have hready := not_ready_of_not_frameWaits hwaits
    obtain rfl | ⟨a, f, d, rfl⟩ := hi
    · rw [exec_handoff, hready, internalStep_fault hwf]
    · rw [exec_wireFrame, hready, internalStep_fault hwf]
  case dispatcher =>
    have hoff : s.blk.dispatching = false := by simpa using (dispatching_iff s.blk).not.2 hslave
    obtain ⟨a, d, rfl⟩ | ⟨a, d, rfl⟩ | ⟨a, f, d, rfl⟩ | ⟨f, rfl⟩ := hi
    · rw [exec_writeText, hoff, internalStep_fault hwf]
    · rw [exec_readText, hoff, internalStep_fault hwf]
    · rw [exec_unsupportedFunc, hoff, internalStep_fault hwf]
    · rw [exec_exceptionReply, hoff, internalStep_fault hwf]

/-! ### Who is answered -/

/-- A delivery sends nothing in answer to a broadcast (R179(a)). -/
theorem Delivered.tx_broadcast {b u : Block} {f : Byte} {d : Bytes} (h : Delivered b (.ok ⟨broadcast, f, d⟩) u) :
    u.tx = b.tx := by
  cases h with
  | silent => rfl
  | replied _ _ _ _ hunicast =>
    obtain ⟨_, ⟨⟩, hne⟩ := hunicast
    exact absurd rfl hne
  | stored _ _ _ _ _ hr _ hx =>
    cases hr
    obtain rfl | ⟨hne, -⟩ := hx
    · exact List.append_nil b.tx
    · exact absurd rfl hne

/-- Settles O37: a HANDOFF that answers is one delivery, and the delivery of a broadcast sends nothing. -/
theorem broadcastsAreNeverAnswered : Obligations.BroadcastsAreNeverAnswered := by
  intro s t f d hparse hexec
  obtain ⟨-, rfl⟩ := exec_handoff_next hexec
  obtain ⟨u, hu, hhandoff⟩ := handoff_cases s.params.lowerHex s.blk
  rw [hparse] at hu
  rw [State.withBlk_blk, hhandoff]
  exact hu.tx_broadcast

/-- Settles O38: a delivery sends at most one frame that `build` made for the own address, and such a frame parses. -/
theorem repliesCarryTheOwnAddress : Obligations.RepliesCarryTheOwnAddress := by
  intro s t _ hexec
  obtain ⟨-, rfl⟩ := exec_handoff_next hexec
  refine (handoff_tx s.params.lowerHex s.blk).imp_right ?_
  rintro ⟨f, d, w, hbuild, htx⟩
  obtain ⟨-, rfl⟩ := (build_ok_iff _ f d w).1 hbuild
  exact ⟨_, f, d, htx, parse_wireBytes false _ f d⟩

/-- An own-address WRITE_TEXT that answers was `Block.writeText` with its acknowledgement (R172, R173). -/
theorem exec_writeText_own_next {s t : State} {d : Bytes} (hown : s.blk.own ≠ broadcast) (hlegal : s.blk.own.toNat ≤ 247)
    (h : exec (.writeText s.blk.own d) s = .next t) :
    t.blk.own = s.blk.own ∧ t.blk.text = d ∧ t.blk.tx = s.blk.tx ++ wireBytes s.blk.own fnWriteText okPayload := by
  rw [exec_writeText] at h
  obtain ⟨-, -, rfl⟩ := internalStep_next h
  rw [State.withBlk_blk, addressed_pass (.inr rfl), writeText_unicast hown hlegal]
  exact ⟨rfl, rfl, rfl⟩

/-- Settles O39: the first WRITE_TEXT leaves the own address, so the second does to its state what the first did. -/
theorem repeatedWriteTextIsIdempotent : Obligations.RepeatedWriteTextIsIdempotent := by
  intro s t u d ⟨_, _, hpos, hlegal⟩ hfirst hsecond
  have hne := own_ne_broadcast hpos
  obtain ⟨hown, htext, htx⟩ := exec_writeText_own_next hne hlegal hfirst
  rw [← hown] at hne hlegal hsecond
  obtain ⟨-, htext', htx'⟩ := exec_writeText_own_next hne hlegal hsecond
  rw [hown] at htx'
  exact ⟨htext, htext', _, List.cons_ne_nil _ _, htx, htx'⟩

end Sys2Proof.Machine
end

section
/-! PROOFS. What no step changes (00_scope.md R5, 10_state.md R27 to R33, 20_memory.md R52, R58, 60_exceptions.md R231):
the parameters, the configuration, the run state and the text outside RESET and an accepted WriteText. -/

namespace Sys2Proof.Machine

open Sys2Proof Sys2Proof.Spec

/-! ### The parameters -/

/-- Settles O58: RESET, an acceptance and an internal step each answer a state with the parameters it was given. -/
theorem parametersAreFixed : Obligations.ParametersAreFixed := by
  refine ⟨fun i s t h => ?exec, fun s t h => ?step⟩
  case exec =>
    obtain ⟨own, gap, mode, role, rfl⟩ | ⟨act, hexec, hact⟩ | hreserved | ⟨enabled, act, hexec⟩ := exec_shape i s
    · obtain ⟨_, _, hreset⟩ := exec_reset_next own gap mode role s
      cases hreset.symm.trans h
      rfl
    · obtain ⟨-, rfl⟩ | ⟨_, -, rfl⟩ | ⟨-, -, rfl⟩ := acceptCommand_next (hexec.symm.trans h)
      · rfl
      · rfl
      · exact hact s
    · rw [exec_of_isReserved hreserved] at h
      obtain hheld | hanswered := acceptReserved_cases i s
      · cases hheld.symm.trans h
        rfl
      · cases hanswered.symm.trans h
        rfl
    · obtain ⟨-, -, rfl⟩ := internalStep_next (hexec.symm.trans h)
      rfl
  case step =>
    cases step_effect h with
    | idle => rfl
    | handoff => rfl
    | command => rfl

/-! ### The pure commands -/

/-- Settles O49: a command is held, refused or performed; the first two leave the block, and so does an action that only
answers. -/
theorem pureCommandsLeaveTheBlockAlone : Obligations.PureCommandsLeaveTheBlockAlone := by
  intro s t i hi h
  obtain ⟨r, hexec⟩ : ∃ r : State → Response, exec i s = acceptCommand i s fun s => s.respond (r s) := by
    obtain ⟨x, rfl⟩ | ⟨a, f, d, rfl⟩ | ⟨w, rfl⟩ := hi
    · exact ⟨fun _ => .val (lrc x), exec_lrc x s⟩
    · exact ⟨fun _ => buildResponse a f d, exec_build a f d s⟩
    · exact ⟨fun s => parseResponse s.params.lowerHex w, exec_parse w s⟩
  obtain ⟨-, rfl⟩ | ⟨_, -, rfl⟩ | ⟨-, -, rfl⟩ := acceptCommand_next (hexec.symm.trans h)
  · rfl
  · rfl
  · rfl

/-! ### The configuration and the text -/

/-- A command other than RESET leaves the configuration, the run state and the text (R27 to R30, R33). -/
theorem CommandEffect.reset_or_frame {p : Params} {b b' : Block} {i : Instr} {r : Response}
    (h : CommandEffect p b i b' r) :
    (∃ own gap mode role next, i = .reset own gap mode role ∧ b' = b.configure own gap mode role next) ∨
      b'.text = b.text ∧ b'.own = b.own ∧ b'.gap = b.gap ∧ b'.mode = b.mode ∧ b'.role = b.role ∧ b'.run = b.run := by
  cases h with
  | resetOk => exact .inl ⟨_, _, _, _, _, rfl, rfl⟩
  | resetHalts => exact .inl ⟨_, _, _, _, _, rfl, rfl⟩
  | rxb v t =>
    obtain ⟨-, -, hframe⟩ := receive_frame p v t b
    exact .inr hframe
  | rxto t =>
    obtain ⟨-, -, hframe⟩ := timeout_frame t b
    exact .inr hframe
  | flush | reserved7 | reserved8F | refused | lrc | build | parse => exact .inr ⟨rfl, rfl, rfl, rfl, rfl, rfl⟩

/-- Settles O55: a hand-off delivers without writing the configuration, and of the commands only RESET writes it. -/
theorem onlyResetChangesConfiguration : Obligations.OnlyResetChangesConfiguration := by
  intro s t h
  cases step_effect h with
  | idle => exact .inl ⟨rfl, rfl, rfl, rfl, rfl⟩
  | handoff =>
    obtain ⟨u, hu, hhandoff⟩ := handoff_cases s.params.lowerHex s.blk
    obtain ⟨hrun, hown, hgap, hmode, hrole, -⟩ := hu.frame
    rw [hhandoff]
    exact .inl ⟨hown, hgap, hmode, hrole, hrun⟩
  | command c _ _ _ _ _ hport hdec heffect =>
    obtain ⟨own, gap, mode, role, _, rfl, rfl⟩ | ⟨-, hframe⟩ := heffect.reset_or_frame
    · exact .inr ⟨c, hport, hdec⟩
    · exact .inl hframe

/-- Settles O56: a hand-off stores at most the data of an accepted WriteText, and of the commands only RESET writes the
text. -/
theorem onlyWriteTextOrResetChangesText : Obligations.OnlyWriteTextOrResetChangesText := by
  intro s t h
  cases step_effect h with
  | idle => exact .inl rfl
  | handoff _ hready =>
    obtain ⟨u, hu, hhandoff⟩ := handoff_cases s.params.lowerHex s.blk
    rw [hhandoff]
    exact hu.text.imp_right fun hstored => .inr ⟨(ready_iff s.blk).1 hready, hstored⟩
  | command c _ _ _ _ _ hport hdec heffect =>
    obtain ⟨own, gap, mode, role, _, rfl, rfl⟩ | ⟨htext, -⟩ := heffect.reset_or_frame
    · exact .inr (.inl ⟨rfl, own, gap, mode, role, c, hport, hdec⟩)
    · exact .inl htext

/-! ### The run state -/

/-- A command that runs a halted block is a RESET with a legal configuration (R202, R231). -/
theorem CommandEffect.reset_of_runs {p : Params} {b b' : Block} {i : Instr} {r : Response} {c : Status}
    (h : CommandEffect p b i b' r) (hhalted : b.run = .halted c) (hrun : b'.run = .run) :
    ∃ own gap mode role, i = .reset own gap mode role ∧ configError own mode role = none := by
  obtain ⟨_, _, _, _, _, rfl, -⟩ | ⟨-, -, -, -, -, hkept⟩ := h.reset_or_frame
  · cases h with
    | resetOk _ _ _ _ hlegal => exact ⟨_, _, _, _, rfl, hlegal⟩
    | resetHalts => cases hrun
    | refused _ _ _ hi => simp at hi
  · rw [hkept, hhalted] at hrun
    cases hrun

/-- Settles O45: a halted block takes no hand-off, and a command that runs it is a RESET that passed its checks. -/
theorem onlyALegalResetLeavesHalted : Obligations.OnlyALegalResetLeavesHalted := by
  intro s t c hhalted h hrun
  have hstopped : s.blk.run ≠ .run := by simp [hhalted]
  cases step_effect h with
  | idle => exact absurd hrun hstopped
  | handoff _ hready => exact absurd ((ready_iff s.blk).1 hready).1 hstopped
  | command c _ _ _ _ _ hport hdec heffect =>
    obtain ⟨own, gap, mode, role, rfl, hlegal⟩ := heffect.reset_of_runs hhalted hrun
    obtain ⟨rfl, hown⟩ := (configError_none_iff own mode role).1 hlegal
    exact ⟨own, gap, role, ⟨c, hport, hdec⟩, hown⟩

end Sys2Proof.Machine
end
